-- ==== Sys2Proof/Word.lean ====
section
/-! DEFINITION. The widths of 00_scope.md R7: a 16-bit word (cells, `R`, `page`, `off`, tape values and tape addresses)
and the byte in which one token is encoded (30_encoding.md R69). -/

namespace Sys2Proof

/-- The set `u16` of 00_scope.md R10: a cell, the register, half of the data pointer, a tape value or a tape address.
Bit 0 is the least significant bit. -/
abbrev Word := BitVec 16

/-- One byte of program text; one token is exactly one byte (R61, R69). -/
abbrev Byte := BitVec 8

end Sys2Proof
end

