-- ==== Sys2Proof/Config.lean ====
section
/-! DEFINITION. What an implementation fixes: the one parameter the spec leaves to the model besides its inputs
(00_scope.md R8), and the fixed sizes of R7. There are no free values: 93_implementation_defined.md says that no
instruction rule needs a draw. -/

namespace Sys2Proof

/-- `BRACKET_LANDING` (00_scope.md R8, 43_control.md R140): where a taken bracket lands. -/
inductive BracketLanding where
  /-- The token after the match: the spec's default. -/
  | afterMatch
  /-- The matching bracket itself. -/
  | onMatch
  deriving DecidableEq, Repr

/-- The default of 00_scope.md R8. -/
def Config.defaultLanding : BracketLanding := .afterMatch

/-- `PAGES` and `PAGE_CELLS` (00_scope.md R7): pages per memory, and cells per page. -/
def Config.pageCells : Nat := 65536

/-- Slots of a peripheral tape that a 16-bit address reaches (00_scope.md R7). -/
def Config.tapeSlots : Nat := 65536

/-- All cells of data memory (10_state.md R24): 2 to the power 32. -/
def Config.memoryCells : Nat := Config.pageCells * Config.pageCells

end Sys2Proof
end

