-- ==== Sys2Proof/Syntax.lean ====
section
/-! DEFINITION. The instruction set: one constructor per row of spec/opcode_table.json, in the table's order
(30_encoding.md R60, R72). Every operand is implicit (R69, R70), so no constructor has an argument. -/

namespace Sys2Proof

/-- The sixteen instructions. The constructors follow the spec names of 30_encoding.md R72; `inp` is IN. -/
inductive Instr where
  /-- OFFINC, the glyph with byte 0x3E: 41_pointer.md R100. -/
  | offInc
  /-- OFFDEC, byte 0x3C: 41_pointer.md R101. -/
  | offDec
  /-- INC, byte 0x2B: 42_alu.md R120. -/
  | inc
  /-- DEC, byte 0x2D: 42_alu.md R121. -/
  | dec
  /-- BRZ, loop begin, byte 0x5B: 43_control.md R141. -/
  | brz
  /-- BRNZ, loop end, byte 0x5D: 43_control.md R142. -/
  | brnz
  /-- OUT, byte 0x2E: 44_register_io.md R162. -/
  | out
  /-- IN, byte 0x2C: 44_register_io.md R163. -/
  | inp
  /-- SETOFF, byte 0x40: 41_pointer.md R104. -/
  | setOff
  /-- RLOAD, byte 0x5E: 44_register_io.md R160. -/
  | rload
  /-- RSTORE, byte 0x2A: 44_register_io.md R161. -/
  | rstore
  /-- ROR, byte 0x7E: 42_alu.md R122. -/
  | ror
  /-- NAND, byte 0x26: 42_alu.md R123. -/
  | nand
  /-- SETPAGE, byte 0x23: 41_pointer.md R105. -/
  | setPage
  /-- PAGEINC, byte 0x7D (the table's mnemonic ROW): 41_pointer.md R106. -/
  | pageInc
  /-- PAGEDEC, byte 0x7B (the table's mnemonic ROW_2): 41_pointer.md R107. -/
  | pageDec
  deriving DecidableEq, Repr

end Sys2Proof
end

