-- ==== Sys2Proof/WellFormed.lean ====
section
/-! DEFINITION. Well-formedness of syntax: of one instruction (no operand can be out of range, 30_encoding.md R70)
and of a program's brackets ("correctly balanced brackets", R68), the latter said without a stack, so that the
loader of Machine/Loader.lean can be compared with it. -/

namespace Sys2Proof

/-- An instruction has no operand, immediate or mode field (30_encoding.md R69, R70, R73): each of the sixteen is well
formed. -/
def Instr.wf : Instr → Bool
  | .offInc | .offDec | .inc | .dec | .brz | .brnz | .out | .inp => true
  | .setOff | .rload | .rstore | .ror | .nand | .setPage | .pageInc | .pageDec => true

/-- Loop begins among some instructions. -/
def countBrz (is : List Instr) : Nat := is.count .brz

/-- Loop ends among some instructions. -/
def countBrnz (is : List Instr) : Nat := is.count .brnz

/-- No prefix closes more loops than it opens: no loop end is unmatched (30_encoding.md R65). -/
abbrev NoEarlyClose (is : List Instr) : Prop :=
  ∀ n, n < is.length + 1 → countBrnz (is.take n) ≤ countBrz (is.take n)

/-- Every loop begun is ended: no loop begin is left over (30_encoding.md R65). -/
abbrev NoOpenLeft (is : List Instr) : Prop := countBrz is = countBrnz is

/-- "Correctly balanced brackets" (30_encoding.md R68). -/
abbrev Balanced (is : List Instr) : Prop := NoEarlyClose is ∧ NoOpenLeft is

end Sys2Proof
end

