-- ==== Sys2Proof/Decode.lean ====
section
/-! DEFINITION. The decoder and the encoder, both written from the opcode map of 30_encoding.md R72 (bytes of R61),
independently of each other. Decoding is total on bytes; the 240 bytes that are no token decode to nothing (R73). -/

namespace Sys2Proof

/-- The opcode map of 30_encoding.md R72, byte to instruction. A byte outside the map is no token (R73). -/
def decode (b : Byte) : Option Instr :=
  match b.toNat with
  | 0x3E => some .offInc
  | 0x3C => some .offDec
  | 0x2B => some .inc
  | 0x2D => some .dec
  | 0x5B => some .brz
  | 0x5D => some .brnz
  | 0x2E => some .out
  | 0x2C => some .inp
  | 0x40 => some .setOff
  | 0x5E => some .rload
  | 0x2A => some .rstore
  | 0x7E => some .ror
  | 0x26 => some .nand
  | 0x23 => some .setPage
  | 0x7D => some .pageInc
  | 0x7B => some .pageDec
  | _ => none

/-- The byte of an instruction's symbol (30_encoding.md R61). -/
def encode : Instr → Byte
  | .offInc => 0b00111110#8
  | .offDec => 0b00111100#8
  | .inc => 0b00101011#8
  | .dec => 0b00101101#8
  | .brz => 0b01011011#8
  | .brnz => 0b01011101#8
  | .out => 0b00101110#8
  | .inp => 0b00101100#8
  | .setOff => 0b01000000#8
  | .rload => 0b01011110#8
  | .rstore => 0b00101010#8
  | .ror => 0b01111110#8
  | .nand => 0b00100110#8
  | .setPage => 0b00100011#8
  | .pageInc => 0b01111101#8
  | .pageDec => 0b01111011#8

/-- Is this byte one of the sixteen symbols, so that LOAD keeps it (30_encoding.md R62)? -/
def isToken (b : Byte) : Bool := (decode b).isSome

/-- LOAD's filter (30_encoding.md R62, R63): the kept symbols of a source, in source order. -/
def tokens (source : List Byte) : List Byte := source.filter isToken

/-- The instructions of a text, comments left out. -/
def decodeText (source : List Byte) : List Instr := source.filterMap decode

/-- The shortest text of some instructions: their symbols with no comment (30_encoding.md R74). -/
def encodeText (is : List Instr) : List Byte := is.map encode

/-- The instruction in a table word: a row of spec/opcode_table.json has `nbits` bits (8 for every row), of which the
first byte is the token. -/
def decodeTableWord (nbits w : Nat) : Option Instr := decode (BitVec.ofNat 8 (w % 2 ^ nbits))

end Sys2Proof
end

