-- ==== Sys2Proof/Machine/SparseMap.lean ====
section
/-! DEFINITION. Sparse data by key: a list of (key, value) pairs in one canonical form, keys strictly rising. Data memory,
the write-only tape and the jump table are held in it. -/

namespace Sys2Proof.Machine

/-- The value listed at a key, if any. -/
def SparseMap.find {α : Type} : List (Nat × α) → Nat → Option α
  | [], _ => none
  | (k, v) :: rest, a => if a = k then some v else SparseMap.find rest a

/-- List `v` at key `a`, in its place by key, over whatever was listed there. -/
def SparseMap.insert {α : Type} : List (Nat × α) → Nat → α → List (Nat × α)
  | [], a, v => [(a, v)]
  | (k, w) :: rest, a, v =>
    if a < k then (a, v) :: (k, w) :: rest
    else if a = k then (a, v) :: rest
    else (k, w) :: SparseMap.insert rest a v

/-- List nothing at key `a`. -/
def SparseMap.erase {α : Type} : List (Nat × α) → Nat → List (Nat × α)
  | [], _ => []
  | (k, w) :: rest, a => if a = k then SparseMap.erase rest a else (k, w) :: SparseMap.erase rest a

/-- The canonical form: keys strictly rising. -/
abbrev SparseMap.Rising {α : Type} (l : List (Nat × α)) : Prop := l.Pairwise fun x y => x.1 < y.1

end Sys2Proof.Machine
end

