-- ==== Sys2Proof/Machine/State.lean ====
section
/-! DEFINITION. The machine's state (10_state.md R20 to R31, 40_engine.md R80), the reasons a step can stop, and the
state after reset. -/

namespace Sys2Proof.Machine

/-- Data memory `M` (10_state.md R24): (cell address, cell) pairs, the cell address being page * 65536 + offset. A cell
that is not listed reads 0, and no listed cell holds 0 (DESIGN CHOICE of representation, log 1; safe). -/
abbrev Memory := List (Nat × Word)

/-- The slots of `WO` (10_state.md R29): a listed address is a slot with the written mark, with the value it holds; a slot
that is not listed is unwritten and holds 0 (20_memory.md R49). -/
abbrev WriteTape := List (Nat × Word)

/-- `WOLOG` (10_state.md R29): every write of `WO` as (address, value), the oldest first. -/
abbrev WriteLog := List (Word × Word)

/-- The jump table `J` (30_encoding.md R66): a partial map from program index to program index. -/
abbrev JumpTable := List (Nat × Nat)

/-- The whole architectural state, with the inputs fixed at LOAD and CONSTRUCT (40_engine.md R80). Whether the machine is
halted is no state of its own (10_state.md R27). -/
structure State where
  /-- Program counter: an index of the token array, unbounded and never wrapping (10_state.md R20). -/
  pc : Nat
  /-- Page half of the data pointer (10_state.md R22). -/
  page : Word
  /-- Offset half of the data pointer (10_state.md R23). -/
  off : Word
  /-- The register `R` (10_state.md R21). -/
  r : Word
  /-- Data memory `M` (10_state.md R24). -/
  m : Memory
  /-- The read-only tape `RO`, element k at address k (10_state.md R28, 20_memory.md R45). -/
  ro : List Word
  /-- The slots of the write-only tape `WO` (10_state.md R29). -/
  wo : WriteTape
  /-- The stream of writes `WOLOG` (10_state.md R29). -/
  woLog : WriteLog
  /-- The token array `prog` (10_state.md R31). -/
  prog : List Byte
  /-- The jump table `J` (10_state.md R31). -/
  jump : JumpTable
  /-- The parameter `BRACKET_LANDING` of this machine (00_scope.md R8); no step writes it (log 3). -/
  landing : BracketLanding
  deriving DecidableEq, Repr

/-- Why a step stops with a fault. -/
inductive Fault where
  /-- `RuntimeFault` of 60_exceptions.md R182: raised by nobody, "a constructor of the outcome type that no step
  produces". Safe. -/
  | runtimeFault
  /-- Raised by `step` where pc lies beyond N, a state no LOAD, CONSTRUCT and STEP leads to (40_engine.md R84); such a
  state has no rule, so the model faults (93_implementation_defined.md I1; log 4). Safe. -/
  | pcPastProgram
  /-- Raised by a taken bracket whose index has no entry in `J`, which no loaded program has (30_encoding.md R66); such a
  state has no rule, so the model faults (93_implementation_defined.md I1; log 4). Safe. -/
  | noJumpEntry
  deriving DecidableEq, Repr

/-- Why the model gives a step no meaning. -/
inductive Refusal where
  /-- Raised by `exec` for an instruction without a meaning; no arm of it does so. Safe. -/
  | notModelled (mnemonic : String)
  /-- Raised by `step` where the program holds a byte that is none of the sixteen tokens, "a Program LOAD cannot
  produce" (30_encoding.md R73; log 5). Safe. -/
  | notAToken (b : Byte)
  deriving DecidableEq, Repr

/-- The state after CONSTRUCT (10_state.md R34, 70_reset_and_hazards.md R200), for the empty program and the empty
read-only tape: what the host supplies has not been supplied (log 2, DESIGN CHOICE). -/
def State.reset : State where
  pc := 0
  page := 0#16
  off := 0#16
  r := 0#16
  m := []
  ro := []
  wo := []
  woLog := []
  prog := []
  jump := []
  landing := Config.defaultLanding

end Sys2Proof.Machine
end

