-- ==== Sys2Proof/Machine/Ops.lean ====
section
/-! DEFINITION. The named operations over memory, tapes and program: MemRead, MemWrite, TapeRead, TapeWrite
(00_scope.md R13), fetch (40_engine.md R83), the jump table, and the ends of a step (R84, 43_control.md R140).
The core takes no exception and returns from none (60_exceptions.md R186, R187), so there is no operation for either. -/

namespace Sys2Proof.Machine

/-- What a step answers. -/
abbrev StepResult := Host.Outcome State Fault Refusal

/-- The address of the cell at page `p`, offset `o`: pages lie one after another (log 1). -/
def cellAddr (p o : Word) : Nat := p.toNat * Config.pageCells + o.toNat

/-- What an unlisted cell reads as: "An untouched page's cells are implicitly zero" (10_state.md R24). -/
def unlistedCell : Word := 0#16

/-- `MemRead((p, o), 1)` (20_memory.md R41): total, without side effect. -/
def memRead (m : Memory) (p o : Word) : Word := (SparseMap.find m (cellAddr p o)).getD unlistedCell

/-- `MemWrite((p, o), 1, v)` (20_memory.md R42): sets that cell and no other. Writing what an unlisted cell reads as
unlists the cell. -/
def memWrite (m : Memory) (p o v : Word) : Memory :=
  if v = unlistedCell then SparseMap.erase m (cellAddr p o) else SparseMap.insert m (cellAddr p o) v

/-- The canonical form of data memory: addresses strictly rising and inside the address space (R24), and no cell listed
that holds what an unlisted cell reads as. -/
abbrev Memory.wf (m : Memory) : Prop :=
  SparseMap.Rising m ∧ ∀ e ∈ m, e.1 < Config.memoryCells ∧ e.2 ≠ unlistedCell

/-- `TapeRead(a)` (20_memory.md R46): element `a`, or 0 at and beyond the tape's length. -/
def tapeRead (ro : List Word) (a : Word) : Word := (ro[a.toNat]?).getD 0#16

/-- The slots of `WO` after `TapeWrite(a, v)` (20_memory.md R48): slot `a` holds `v` and is marked written. -/
def slotWrite (wo : WriteTape) (a v : Word) : WriteTape := SparseMap.insert wo a.toNat v

/-- The written mark of slot `a` (10_state.md R29). -/
def slotWritten (wo : WriteTape) (a : Word) : Bool := (SparseMap.find wo a.toNat).isSome

/-- The value slot `a` reads as to the host: 0 where it is unwritten (20_memory.md R49). -/
def slotValue (wo : WriteTape) (a : Word) : Word := (SparseMap.find wo a.toNat).getD 0#16

/-- The slots that a log of writes leaves on an empty tape: the last write of a slot wins ("not append-only",
20_memory.md R48). -/
def slotsOfLog (log : WriteLog) : WriteTape := log.foldl (fun wo e => slotWrite wo e.1 e.2) []

/-- The token under the program counter (40_engine.md R83); nothing at and beyond the end of the program. -/
def fetch (s : State) : Option Byte := s.prog[s.pc]?

/-- `J[k]` (30_encoding.md R66). -/
def jumpTarget (j : JumpTable) (k : Nat) : Option Nat := SparseMap.find j k

/-- Enter a matched pair of brackets into `J`, both ways (30_encoding.md R64). -/
def recordPair (j : JumpTable) (openAt closeAt : Nat) : JumpTable :=
  SparseMap.insert (SparseMap.insert j openAt closeAt) closeAt openAt

/-- `land(j)` (43_control.md R140). -/
def land : BracketLanding → Nat → Nat
  | .afterMatch, j => j + 1
  | .onMatch, j => j

/-- The advance of 40_engine.md R84: `pc <- pc + 1`. -/
def State.advance (s : State) : State := { s with pc := s.pc + 1 }

/-- `pc <- target`. -/
def State.jumpTo (s : State) (target : Nat) : State := { s with pc := target }

/-- `off <- v`. -/
def State.setOff (s : State) (v : Word) : State := { s with off := v }

/-- `page <- v`. -/
def State.setPage (s : State) (v : Word) : State := { s with page := v }

/-- `R <- v`. -/
def State.setR (s : State) (v : Word) : State := { s with r := v }

/-- The cell at (p, o), as MemRead reads it. -/
def State.cellAt (s : State) (p o : Word) : Word := memRead s.m p o

/-- `cell`: the cell at the data pointer (00_scope.md R13). -/
def State.cell (s : State) : Word := memRead s.m s.page s.off

/-- `cell <- v` at the data pointer (00_scope.md R13). -/
def State.setCell (s : State) (v : Word) : State := { s with m := memWrite s.m s.page s.off v }

/-- `TapeWrite(a, v)` (20_memory.md R48): the slot, its mark, and the log. -/
def State.tapeOut (s : State) (a v : Word) : State :=
  { s with wo := slotWrite s.wo a v, woLog := s.woLog ++ [(a, v)] }

/-- A taken bracket (43_control.md R140): `pc <- land(J[pc])`. Every loaded program has the entry (30_encoding.md R66);
where it is absent there is no rule and the model faults (log 4). -/
def takeBracket (s : State) : StepResult :=
  match jumpTarget s.jump s.pc with
  | some j => .next (s.jumpTo (land s.landing j))
  | none => .fault .noJumpEntry

end Sys2Proof.Machine
end

