-- ==== Sys2Proof/Machine/Operands.lean ====
section
/-! DEFINITION. The operand forms and the word arithmetic. An instruction's operands are implicit (30_encoding.md R69): the
current cell (`State.cell`), `R`, `page`, `off`, `J[pc]`, or a tape at address `R`. All arithmetic is unsigned modulo
65536 and sets nothing else (42_alu.md R119). -/

namespace Sys2Proof.Machine

/-- `(w + 1) mod 65536` (R100, R106, R120). -/
def wordInc (w : Word) : Word := w + 1#16

/-- `(w - 1) mod 65536` (R101, R107, R121). -/
def wordDec (w : Word) : Word := w - 1#16

/-- Rotate right by exactly one bit (42_alu.md R122): bit 0 moves to bit 15, all others shift down. -/
def rotateRight1 (c : Word) : Word := (c >>> 1) ||| ((c &&& 1#16) <<< 15)

/-- `NOT (a AND b)` over 16 bits (42_alu.md R123). -/
def wordNand (a b : Word) : Word := ~~~(a &&& b)

/-- The operand of IN: the read-only tape at address `R` (44_register_io.md R163). -/
def State.tapeOperand (s : State) : Word := tapeRead s.ro s.r

end Sys2Proof.Machine
end

