-- ==== Sys2Proof/Machine/Alu.lean ====
section
/-! DEFINITION. The cell arithmetic and logic instructions (42_alu.md). Each writes the current cell and `pc` and nothing
else. -/

namespace Sys2Proof.Machine

/-- INC (42_alu.md R120). -/
def execInc (s : State) : StepResult := .next (s.setCell (wordInc s.cell)).advance

/-- DEC (42_alu.md R121). -/
def execDec (s : State) : StepResult := .next (s.setCell (wordDec s.cell)).advance

/-- ROR (42_alu.md R122). -/
def execRor (s : State) : StepResult := .next (s.setCell (rotateRight1 s.cell)).advance

/-- NAND (42_alu.md R123). -/
def execNand (s : State) : StepResult := .next (s.setCell (wordNand s.cell s.r)).advance

end Sys2Proof.Machine
end

