-- ==== Sys2Proof/Machine/Flags.lean ====
section
/-! DEFINITION. The core has no status flags and no condition codes (10_state.md R26), so no instruction computes one. What
stands here is the one condition the core has: the brackets' direct test of the current cell against zero. -/

namespace Sys2Proof.Machine

/-- The brackets' test: is the current cell zero (10_state.md R26)? -/
def State.cellIsZero (s : State) : Bool := s.cell = 0#16

end Sys2Proof.Machine
end

