-- ==== Sys2Proof/Machine/Control.lean ====
section
/-! DEFINITION. The brackets (43_control.md): they read the current cell and write only `pc`. -/

namespace Sys2Proof.Machine

/-- BRZ, loop begin (43_control.md R141): taken when the current cell is zero. -/
def execBrz (s : State) : StepResult := if s.cellIsZero then takeBracket s else .next s.advance

/-- BRNZ, loop end (43_control.md R142): taken when the current cell is not zero. -/
def execBrnz (s : State) : StepResult := if s.cellIsZero then .next s.advance else takeBracket s

end Sys2Proof.Machine
end

