-- ==== Sys2Proof/Machine/Pointer.lean ====
section
/-! DEFINITION. The data-pointer instructions (41_pointer.md). None touches memory's contents, `R` or the tapes, and offset
arithmetic never carries into the page (R102). -/

namespace Sys2Proof.Machine

/-- OFFINC (41_pointer.md R100). -/
def execOffInc (s : State) : StepResult := .next (s.setOff (wordInc s.off)).advance

/-- OFFDEC (41_pointer.md R101). -/
def execOffDec (s : State) : StepResult := .next (s.setOff (wordDec s.off)).advance

/-- SETOFF (41_pointer.md R104): the cell read is the one at the old offset. -/
def execSetOff (s : State) : StepResult := .next (s.setOff s.cell).advance

/-- SETPAGE (41_pointer.md R105): the cell read is the one in the old page. -/
def execSetPage (s : State) : StepResult := .next (s.setPage s.cell).advance

/-- PAGEINC (41_pointer.md R106). -/
def execPageInc (s : State) : StepResult := .next (s.setPage (wordInc s.page)).advance

/-- PAGEDEC (41_pointer.md R107). -/
def execPageDec (s : State) : StepResult := .next (s.setPage (wordDec s.page)).advance

end Sys2Proof.Machine
end

