-- ==== Sys2Proof/Machine/RegisterIO.lean ====
section
/-! DEFINITION. Register transfer and peripheral I/O (44_register_io.md). The tapes are buffers: neither instruction ever
waits (R164). -/

namespace Sys2Proof.Machine

/-- RLOAD (44_register_io.md R160). -/
def execRload (s : State) : StepResult := .next (s.setR s.cell).advance

/-- RSTORE (44_register_io.md R161). -/
def execRstore (s : State) : StepResult := .next (s.setCell s.r).advance

/-- OUT (44_register_io.md R162): `TapeWrite(R, c)`. -/
def execOut (s : State) : StepResult := .next (s.tapeOut s.r s.cell).advance

/-- IN (44_register_io.md R163): the current cell takes `TapeRead(R)`. -/
def execInp (s : State) : StepResult := .next (s.setCell s.tapeOperand).advance

end Sys2Proof.Machine
end

