-- ==== Sys2Proof/Machine/Dispatch.lean ====
section
/-! DEFINITION. Dispatch (40_engine.md R85): each instruction to its meaning. -/

namespace Sys2Proof.Machine

/-- The meaning of one instruction at a state, its advance of `pc` included (40_engine.md R85). -/
def exec (i : Instr) (s : State) : Host.Outcome State Fault Refusal :=
  match i with
  | .offInc => Sys2Proof.Machine.execOffInc s
  | .offDec => Sys2Proof.Machine.execOffDec s
  | .inc => Sys2Proof.Machine.execInc s
  | .dec => Sys2Proof.Machine.execDec s
  | .brz => Sys2Proof.Machine.execBrz s
  | .brnz => Sys2Proof.Machine.execBrnz s
  | .out => Sys2Proof.Machine.execOut s
  | .inp => Sys2Proof.Machine.execInp s
  | .setOff => Sys2Proof.Machine.execSetOff s
  | .rload => Sys2Proof.Machine.execRload s
  | .rstore => Sys2Proof.Machine.execRstore s
  | .ror => Sys2Proof.Machine.execRor s
  | .nand => Sys2Proof.Machine.execNand s
  | .setPage => Sys2Proof.Machine.execSetPage s
  | .pageInc => Sys2Proof.Machine.execPageInc s
  | .pageDec => Sys2Proof.Machine.execPageDec s

end Sys2Proof.Machine
end

