-- ==== Sys2Proof/Machine/Loader.lean ====
section
/-! DEFINITION. The Program Loader (30_encoding.md R62 to R68): LOAD, and CONSTRUCT (40_engine.md R90, R91). -/

namespace Sys2Proof.Machine

/-- What a successful LOAD returns (30_encoding.md R66). -/
structure Program where
  /-- The token array `prog`. -/
  toks : List Byte
  /-- The jump table `J`. -/
  jump : JumpTable
  deriving DecidableEq, Repr

/-- The one LoadError (30_encoding.md R68); it carries no information (R65). -/
inductive LoadError where
  | unbalancedBrackets
  deriving DecidableEq, Repr

/-- What LOAD answers (40_engine.md R90). -/
inductive LoadResult where
  | loaded (p : Program)
  | failed (e : LoadError)
  deriving DecidableEq, Repr

/-- The scan of 30_encoding.md R64 over the tokens from index `k` on, with the stack of pending loop begins and the table
so far; `none` where it raises `UnbalancedBrackets`. -/
def scanBrackets : List Byte → Nat → List Nat → JumpTable → Option JumpTable
  | [], _, stack, j => if stack = [] then some j else none
  | t :: ts, k, stack, j =>
    if t = encode .brz then scanBrackets ts (k + 1) (k :: stack) j
    else if t = encode .brnz then
      match stack with
      | [] => none
      | i :: rest => scanBrackets ts (k + 1) rest (recordPair j i k)
    else scanBrackets ts (k + 1) stack j

/-- The jump table of a token array (30_encoding.md R64), if its brackets match. -/
def matchBrackets (toks : List Byte) : Option JumpTable := scanBrackets toks 0 [] []

/-- LOAD (40_engine.md R90): filter the source and match its brackets. -/
def load (source : List Byte) : LoadResult :=
  match matchBrackets (tokens source) with
  | some j => .loaded { toks := tokens source, jump := j }
  | none => .failed .unbalancedBrackets

/-- CONSTRUCT (40_engine.md R91): the state of 10_state.md R34 for a loaded program and the host's read-only tape, on a
machine with the given `BRACKET_LANDING` (00_scope.md R8). -/
def construct (landing : BracketLanding) (p : Program) (tape : List Word) : State :=
  { State.reset with prog := p.toks, jump := p.jump, ro := tape, landing := landing }

/-- The shortest program LOAD accepts that holds the token `b`: a bracket stands there with its partner. -/
def fetchText (b : Byte) : List Byte :=
  if b = encode .brz ∨ b = encode .brnz then [encode .brz, encode .brnz] else [b]

/-- Where `b` stands in `fetchText b`. -/
def fetchIndex (b : Byte) : Nat := if b = encode .brnz then 1 else 0

/-- The state with the program `fetchText b` loaded and the program counter at its token `b`; nothing else changes (log 2
says how a program comes to run). -/
def State.withToken (s : State) (b : Byte) : State :=
  { s with prog := fetchText b, jump := (matchBrackets (fetchText b)).getD [], pc := fetchIndex b }

end Sys2Proof.Machine
end

