-- ==== Sys2Proof/Machine/Run.lean ====
section
/-! DEFINITION. The body of one step (40_engine.md R82 to R87, R92), and what the host sees between steps: the status and
the snapshot (R94). Step.lean calls `stepBody`. -/

namespace Sys2Proof.Machine

/-- The status STEP returns (40_engine.md R92). -/
inductive Status where
  | running
  | halted
  deriving DecidableEq, Repr

/-- Halted exactly when `pc == N` (40_engine.md R81, 10_state.md R27). -/
def State.status (s : State) : Status := if s.pc = s.prog.length then .halted else .running

/-- One step. A halted machine executes nothing and changes nothing (40_engine.md R81, R92); otherwise the token under `pc`
is fetched, decoded and executed (R82, R83, R85). Beyond N there is no rule (log 4); a byte that is no token is refused
(30_encoding.md R73, log 5). -/
def stepBody (s : State) : StepResult :=
  match s.status with
  | .halted => .next s
  | .running =>
    match fetch s with
    | none => .fault .pcPastProgram
    | some b =>
      match decode b with
      | none => .refused (.notAToken b)
      | some i => exec i s

/-- What SNAPSHOT returns (40_engine.md R94). -/
structure Snapshot where
  pc : Nat
  page : Word
  off : Word
  r : Word
  m : Memory
  wo : WriteTape
  woLog : WriteLog
  status : Status
  deriving DecidableEq, Repr

/-- SNAPSHOT (40_engine.md R94): reads, and changes nothing. -/
def snapshot (s : State) : Snapshot :=
  { pc := s.pc, page := s.page, off := s.off, r := s.r, m := s.m, wo := s.wo, woLog := s.woLog, status := s.status }

end Sys2Proof.Machine
end

