-- ==== Sys2Proof/Machine/Step.lean ====
section
/-! DEFINITION. The step function, and where a word is put so that the next step runs it. The host's operations over it stand in
Session.lean. -/

namespace Sys2Proof.Machine

/-- One step of the machine (40_engine.md R82, R92). -/
def step (s : State) : Host.Outcome State Fault Refusal := stepBody s

/-- `s` with the token whose bits are `w` under the program counter, in the shortest program LOAD accepts that holds it. -/
def State.withFetchWord (s : State) (nbits w : Nat) : State := s.withToken (BitVec.ofNat 8 (w % 2 ^ nbits))

end Sys2Proof.Machine
end

