-- ==== Sys2Proof/Machine/Session.lean ====
section
/-! DEFINITION. The host's operations STEP and RUN over the step function (40_engine.md R92, R93), and what SNAPSHOT shows of a
run wherever it stands (R94), one that ended in a fault included (60_exceptions.md R186). -/

namespace Sys2Proof.Machine

/-- STEP (40_engine.md R92): the new state with its status. -/
def stepOperation (s : State) : Host.Outcome (State × Status) Fault Refusal :=
  match step s with
  | .next t => .next (t, t.status)
  | .fault f => .fault f
  | .refused r => .refused r

/-- `n` steps, for claims: the state they lead to, or why one of them stopped. Where a run that stops is to show the state it
stopped in, `runToCompletion` keeps it. -/
def stepN : Nat → State → Host.Outcome State Fault Refusal
  | 0, s => .next s
  | n + 1, s =>
    match step s with
    | .next t => stepN n t
    | .fault f => .fault f
    | .refused r => .refused r

/-- How a RUN stands when its budget of steps is used up or it has ended, always with the state of the VM, which SNAPSHOT
shows. -/
inductive RunResult where
  /-- It returned `Halted`, with the VM in this state (40_engine.md R93, R98). -/
  | halted (s : State)
  /-- It has not returned yet; the VM is in this state (R89). -/
  | running (s : State)
  /-- The step from this state faulted: the run ended at it, "the state before the faulting step, which SNAPSHOT shows",
  and no further step executes (60_exceptions.md R186). -/
  | fault (s : State) (f : Fault)
  /-- The step from this state had no meaning: the run ended at it. -/
  | refused (s : State) (r : Refusal)
  deriving DecidableEq, Repr

/-- The state a run ended at or stands at. -/
def RunResult.state : RunResult → State
  | .halted s => s
  | .running s => s
  | .fault s _ => s
  | .refused s _ => s

/-- What SNAPSHOT shows after a RUN (40_engine.md R94): after a fault, the state before the faulting step (60_exceptions.md
R186). -/
def RunResult.snapshot (result : RunResult) : Snapshot := Sys2Proof.Machine.snapshot result.state

/-- RUN, watched for at most the given number of steps (40_engine.md R93): repeat STEP until the status is `Halted`. RUN
itself has no budget and may not return (R89; log 8). A fault ends it at the state before the faulting step
(60_exceptions.md R186). -/
def runToCompletion : Nat → State → RunResult
  | 0, s => if s.status = .halted then .halted s else .running s
  | n + 1, s =>
    if s.status = .halted then .halted s
    else
      match step s with
      | .next t => runToCompletion n t
      | .fault f => .fault s f
      | .refused r => .refused s r

end Sys2Proof.Machine
end

