-- ==== Sys2Proof/Safety.lean ====
section
/-! DEFINITION. What the claims speak of: the states a host can meet, the invariant of every step, straight-line execution,
and the taken brackets of a run. -/

namespace Sys2Proof.Machine

/-- The states of a VM instance's life (40_engine.md R90, R91, R92): what CONSTRUCT makes of a loaded program and a tape, and
what steps make of that. -/
inductive Reachable : State → Prop where
  | construct {source : List Byte} {p : Program} (landing : BracketLanding) (tape : List Word)
      (h : load source = .loaded p) : Reachable (construct landing p tape)
  | step {s t : State} (hs : Reachable s) (h : step s = .next t) : Reachable t

/-- The invariant: pc in 0..N (10_state.md R20), only tokens in the program (30_encoding.md R73), `J` the table LOAD built for
it (10_state.md R31), data memory in canonical form, and the slots of `WO` those that `WOLOG` leaves (20_memory.md R48). -/
structure State.Inv (s : State) : Prop where
  pc_le : s.pc ≤ s.prog.length
  toks : ∀ b ∈ s.prog, isToken b = true
  table : matchBrackets s.prog = some s.jump
  mem : Memory.wf s.m
  slots : s.wo = slotsOfLog s.woLog

/-- What 30_encoding.md R66 and R67 ask of a jump table, said of any partial map `f` of program indices: defined exactly at
the brackets, the same both ways, each pair a loop begin with a later loop end, and any two pairs disjoint or nested. -/
structure StrictMatching (toks : List Byte) (f : Nat → Option Nat) : Prop where
  defined : ∀ k, (∃ j, f k = some j) ↔ toks[k]? = some (encode .brz) ∨ toks[k]? = some (encode .brnz)
  bidirectional : ∀ i j, f i = some j → f j = some i
  pairs : ∀ i j, f i = some j →
    (toks[i]? = some (encode .brz) ∧ i < j ∧ toks[j]? = some (encode .brnz)) ∨
      (toks[i]? = some (encode .brnz) ∧ j < i ∧ toks[j]? = some (encode .brz))
  nested : ∀ i j i' j', f i = some j → f i' = some j' → i < j → i' < j' → i < i' → j < i' ∨ j' < j

/-- `exec` of some instructions one after another, each from the state the one before it left: the outcome of a straight
piece of program without looking at the token array. -/
def execSeq : List Instr → State → Host.Outcome State Fault Refusal
  | [], s => .next s
  | i :: is, s =>
    match exec i s with
    | .next t => execSeq is t
    | .fault f => .fault f
    | .refused r => .refused r

/-- Does the next step take a bracket (43_control.md R140)? -/
def bracketTaken (s : State) : Bool :=
  match (fetch s).bind decode with
  | some .brz => s.cellIsZero
  | some .brnz => !s.cellIsZero
  | _ => false

/-- How many of the next `n` steps take a bracket. -/
def takenIn : Nat → State → Nat
  | 0, _ => 0
  | n + 1, s =>
    match step s with
    | .next t => (if bracketTaken s then 1 else 0) + takenIn n t
    | .fault _ => 0
    | .refused _ => 0

/-- The same machine state on a machine whose `BRACKET_LANDING` is OnMatch. -/
def State.onMatch (s : State) : State := { s with landing := .onMatch }

end Sys2Proof.Machine
end

