-- ==== Sys2Proof/Certificates/Slice0/Obligations.lean ====
section
/-! DEFINITION. The statements for the provers, from the numbered rules of spec/. The current cell is written
`s.cellAt s.page s.off`: `MemRead((page, off), 1)` at the start of the step (00_scope.md R13). -/

open Sys2Proof Sys2Proof.Machine

/-- The sixteen bytes of the opcode map decode to their instructions; some other bytes decode to nothing. (From
30_encoding.md section 4, The opcode map, 30_encoding.md section 5) -/
def Obligations.OpcodeMapWordsDecode : Prop :=
  decode 0x3E#8 = some .offInc ∧ decode 0x3C#8 = some .offDec ∧ decode 0x2B#8 = some .inc ∧ decode 0x2D#8 = some .dec ∧
  decode 0x5B#8 = some .brz ∧ decode 0x5D#8 = some .brnz ∧ decode 0x2E#8 = some .out ∧ decode 0x2C#8 = some .inp ∧
  decode 0x40#8 = some .setOff ∧ decode 0x5E#8 = some .rload ∧ decode 0x2A#8 = some .rstore ∧ decode 0x7E#8 = some .ror ∧
  decode 0x26#8 = some .nand ∧ decode 0x23#8 = some .setPage ∧ decode 0x7D#8 = some .pageInc ∧
  decode 0x7B#8 = some .pageDec ∧
  decode 0x00#8 = none ∧ decode 0x20#8 = none ∧ decode 0x61#8 = none ∧ decode 0xFF#8 = none

/-- Decode and encode agree, for every instruction, every table word and every text. (From 30_encoding.md section 3,
Instruction format, 30_encoding.md section 4, The opcode map, 30_encoding.md section 6) -/
def Obligations.DecodeAndEncodeAgree : Prop :=
  (∀ i : Instr, i.wf = true → decode (encode i) = some i ∧ decodeTableWord 8 (encode i).toNat = some i) ∧
  (∀ (source : List Byte) (is : List Instr), tokens source = encodeText is ↔ decodeText source = is) ∧
  (∀ is : List Instr, decodeText (encodeText is) = is)

/-- A byte that is none of the 16 symbols is dropped by LOAD and has no effect; a symbol is kept in its place. (States
R62) -/
def Obligations.CommentBytesHaveNoEffect : Prop :=
  (∀ (before after : List Byte) (c : Byte), (∀ i : Instr, c ≠ encode i) →
    tokens (before ++ c :: after) = tokens (before ++ after) ∧ load (before ++ c :: after) = load (before ++ after)) ∧
  (∀ (before after : List Byte) (i : Instr),
    tokens (before ++ encode i :: after) = tokens before ++ encode i :: tokens after)

/-- LOAD succeeds exactly on texts with balanced brackets and otherwise fails with UnbalancedBrackets. (States R68) -/
def Obligations.LoadSucceedsExactlyOnBalancedBrackets : Prop :=
  ∀ source : List Byte,
    (Balanced (decodeText source) → ∃ j, load source = .loaded { toks := tokens source, jump := j }) ∧
    (¬ Balanced (decodeText source) → load source = .failed .unbalancedBrackets)

/-- The jump table of a loaded program is defined exactly at its brackets and is bidirectional. (States R66) -/
def Obligations.JumpTableDefinedExactlyAtBrackets : Prop :=
  ∀ (source : List Byte) (p : Program), load source = .loaded p →
    p.toks = tokens source ∧
    (∀ k, (∃ j, jumpTarget p.jump k = some j) ↔
      p.toks[k]? = some (encode .brz) ∨ p.toks[k]? = some (encode .brnz)) ∧
    (∀ i j, jumpTarget p.jump i = some j → jumpTarget p.jump j = some i)

/-- In a loaded program each loop begin is matched forward with a loop end and back, and pairs nest strictly. (States
R67) -/
def Obligations.LoadedBracketsNestStrictly : Prop :=
  ∀ (source : List Byte) (p : Program), load source = .loaded p →
    (∀ i, p.toks[i]? = some (encode .brz) → ∃ j, jumpTarget p.jump i = some j ∧ i < j ∧
      p.toks[j]? = some (encode .brnz) ∧ jumpTarget p.jump j = some i) ∧
    (∀ i j i' j', p.toks[i]? = some (encode .brz) → p.toks[i']? = some (encode .brz) → i < i' →
      jumpTarget p.jump i = some j → jumpTarget p.jump i' = some j' → j < i' ∨ j' < j)

/-- The jump table LOAD builds is the only strict matching of the program. (From 30_encoding.md section 2, Bracket
matching and the jump table) The spec marks it as derived. -/
def Obligations.StrictMatchingIsUnique : Prop :=
  ∀ (source : List Byte) (p : Program) (f : Nat → Option Nat), load source = .loaded p → StrictMatching p.toks f →
    ∀ k, f k = jumpTarget p.jump k

/-- Every bracket of a loaded program lands inside 0..N, under either landing. (From 43_control.md section 3,
Properties of control transfer, 43_control.md section 1, Where a taken bracket lands) Rests on the model's choice, log
6. -/
def Obligations.BracketTargetsLieInTheProgram : Prop :=
  ∀ (source : List Byte) (p : Program) (i j : Nat), load source = .loaded p → jumpTarget p.jump i = some j →
    (1 ≤ land .afterMatch j ∧ land .afterMatch j ≤ p.toks.length) ∧ land .onMatch j < p.toks.length

/-- The state after CONSTRUCT. (States R34) -/
def Obligations.ConstructGivesTheInitialState : Prop :=
  ∀ (landing : BracketLanding) (source : List Byte) (p : Program) (tape : List Word), load source = .loaded p →
    (construct landing p tape).pc = 0 ∧ (construct landing p tape).page = 0#16 ∧ (construct landing p tape).off = 0#16 ∧
    (construct landing p tape).r = 0#16 ∧ (∀ pg o, (construct landing p tape).cellAt pg o = 0#16) ∧
    (construct landing p tape).ro = tape ∧
    (∀ a, slotWritten (construct landing p tape).wo a = false ∧ slotValue (construct landing p tape).wo a = 0#16) ∧
    (construct landing p tape).woLog = [] ∧ (construct landing p tape).prog = p.toks ∧
    (construct landing p tape).jump = p.jump

/-- The model's reset state is CONSTRUCT of the empty program with the empty tape, and it is halted. (From
70_reset_and_hazards.md section 1, Reset, 40_engine.md section 3) Rests on the model's choice, log 2. -/
def Obligations.ResetIsConstructionOfTheEmptyProgram : Prop :=
  (∃ p, load [] = .loaded p ∧ construct Config.defaultLanding p [] = State.reset) ∧
  State.reset.status = .halted ∧ step State.reset = .next State.reset

/-- The state after reset meets the invariant. (From 10_state.md section 9, Ownership and lifetime,
70_reset_and_hazards.md section 1, Reset) -/
def Obligations.ResetMeetsTheInvariant : Prop :=
  State.reset.Inv

/-- Every constructed state meets the invariant. (From 10_state.md section 9, Ownership and lifetime, 30_encoding.md
section 2) -/
def Obligations.ConstructMeetsTheInvariant : Prop :=
  ∀ (landing : BracketLanding) (source : List Byte) (p : Program) (tape : List Word), load source = .loaded p →
    (construct landing p tape).Inv

/-- Every step keeps the invariant. (From 40_engine.md section 2, Fetch, decode, advance, 10_state.md section 1,
20_memory.md section 4) -/
def Obligations.EveryStepKeepsTheInvariant : Prop :=
  ∀ s t : State, s.Inv → step s = .next t → t.Inv

/-- Every step from a state of the machine with pc < N has exactly one successor. (States R87) -/
def Obligations.StepIsTotalBelowTheEnd : Prop :=
  ∀ s : State, s.Inv → s.pc < s.prog.length → ∃ t, step s = .next t ∧ ∀ u, step s = .next u → u = t

/-- No state of any run of any loaded program faults or is refused. (From 60_exceptions.md section 1, Error taxonomy,
40_engine.md section 2) Rests on a decision the spec marks as its own. -/
def Obligations.NoReachableStateStops : Prop :=
  ∀ s : State, Reachable s → s.Inv ∧ ∃ t, step s = .next t

/-- RuntimeFault is raised in no state at all. (From 60_exceptions.md section 1, Error taxonomy) Rests on the model's
choice, log 4. Rests on a decision the spec marks as its own. -/
def Obligations.RuntimeFaultIsNeverRaised : Prop :=
  (∀ s : State, step s ≠ .fault .runtimeFault) ∧
  (∀ (i : Instr) (s : State) (f : Fault), exec i s = .fault f →
    f = .noJumpEntry ∧ jumpTarget s.jump s.pc = none ∧ (i = .brz ∨ i = .brnz))

/-- A step runs the instruction that the token under pc decodes to. (From 40_engine.md section 2, Fetch, decode,
advance) -/
def Obligations.StepRunsTheDecodedInstruction : Prop :=
  ∀ (s : State) (b : Byte) (i : Instr), s.prog[s.pc]? = some b → decode b = some i → i.wf = true → step s = exec i s

/-- STEP returns the status, and changes nothing on a halted machine. (From 40_engine.md section 3, The core's
operations, 92_eei_decisions.md D14) Rests on a decision the spec marks as its own. -/
def Obligations.StepOperationReportsTheStatus : Prop :=
  (∀ s : State, s.pc = s.prog.length → stepOperation s = .next (s, .halted)) ∧
  (∀ s t : State, s.pc < s.prog.length → step s = .next t →
    stepOperation s = .next (t, if t.pc = s.prog.length then .halted else .running))

/-- States that no loaded program reaches stop under names of their own. (From 93_implementation_defined.md section 1,
I1, 30_encoding.md section 5) Rests on the model's choice, log 4 and log 5. -/
def Obligations.StatesWithoutARuleStopByName : Prop :=
  (∀ s : State, s.prog.length < s.pc → step s = .fault .pcPastProgram) ∧
  (∀ (s : State) (b : Byte), s.prog[s.pc]? = some b → isToken b = false → step s = .refused (.notAToken b)) ∧
  (∀ s : State, jumpTarget s.jump s.pc = none → s.cellAt s.page s.off = 0#16 → exec .brz s = .fault .noJumpEntry) ∧
  (∀ s : State, jumpTarget s.jump s.pc = none → s.cellAt s.page s.off ≠ 0#16 → exec .brnz s = .fault .noJumpEntry)

/-- A word placed for the next fetch is run by the very next step, in a program LOAD accepts. (From
70_reset_and_hazards.md section 2, Boot requirements, 40_engine.md section 2) Rests on the model's choice, log 2. -/
def Obligations.FetchWordIsRunNext : Prop :=
  ∀ (s : State) (i : Instr),
    step (s.withFetchWord 8 (encode i).toNat) = exec i (s.withFetchWord 8 (encode i).toNat) ∧
    (s.Inv → (s.withFetchWord 8 (encode i).toNat).Inv) ∧
    (∃ text j, load text = .loaded { toks := (s.withFetchWord 8 (encode i).toNat).prog, jump := j } ∧
      s.withFetchWord 8 (encode i).toNat =
        { s with prog := (s.withFetchWord 8 (encode i).toNat).prog, jump := j,
                 pc := (s.withFetchWord 8 (encode i).toNat).pc })

/-- OFFINC adds one to off modulo 65536 and changes nothing else but pc. (States R100) -/
def Obligations.OffsetIncrement : Prop :=
  decode 0x3E#8 = some .offInc ∧
  ∀ s : State, exec .offInc s = .next
    { s with off := BitVec.ofNat 16 ((s.off.toNat + 1) % 65536), pc := s.pc + 1 }

/-- OFFDEC takes one from off modulo 65536 and changes nothing else but pc. (States R101) -/
def Obligations.OffsetDecrement : Prop :=
  decode 0x3C#8 = some .offDec ∧
  ∀ s : State, exec .offDec s = .next
    { s with off := BitVec.ofInt 16 (((s.off.toNat : Int) - 1) % 65536), pc := s.pc + 1 }

/-- SETOFF moves the current cell, read at the old offset, into off. (States R104) -/
def Obligations.SetOffsetFromCell : Prop :=
  decode 0x40#8 = some .setOff ∧
  ∀ s : State, exec .setOff s = .next
    { s with off := BitVec.ofNat 16 ((s.cellAt s.page s.off).toNat % 65536), pc := s.pc + 1 }

/-- SETPAGE moves the current cell, read in the old page, into page. (States R105) -/
def Obligations.SetPageFromCell : Prop :=
  decode 0x23#8 = some .setPage ∧
  ∀ s : State, exec .setPage s = .next
    { s with page := BitVec.ofNat 16 ((s.cellAt s.page s.off).toNat % 65536), pc := s.pc + 1 }

/-- PAGEINC adds one to page modulo 65536 and changes nothing else but pc. (States R106) -/
def Obligations.PageIncrement : Prop :=
  decode 0x7D#8 = some .pageInc ∧
  ∀ s : State, exec .pageInc s = .next
    { s with page := BitVec.ofNat 16 ((s.page.toNat + 1) % 65536), pc := s.pc + 1 }

/-- PAGEDEC takes one from page modulo 65536 and changes nothing else but pc. (States R107) -/
def Obligations.PageDecrement : Prop :=
  decode 0x7B#8 = some .pageDec ∧
  ∀ s : State, exec .pageDec s = .next
    { s with page := BitVec.ofInt 16 (((s.page.toNat : Int) - 1) % 65536), pc := s.pc + 1 }

/-- Any sequence of offset moves changes only off, by the moves' balance; 65536 increments restore it. (From
41_pointer.md section 1, Offset moves) The spec marks it as derived. -/
def Obligations.OffsetMovesNeverCarryIntoThePage : Prop :=
  (∀ (is : List Instr) (s : State), (∀ i ∈ is, i = .offInc ∨ i = .offDec) →
    execSeq is s = .next
      { s with
        off := BitVec.ofInt 16 (((s.off.toNat : Int) + is.count .offInc - is.count .offDec) % 65536)
        pc := s.pc + is.length }) ∧
  (∀ s : State, execSeq (List.replicate 65536 .offInc) s = .next { s with pc := s.pc + 65536 })

/-- Every data pointer is reachable from every other by pointer moves alone, and none of them can fail. (From
41_pointer.md section 3, Page moves) The spec marks it as derived. -/
def Obligations.PointerMovesReachEveryCell : Prop :=
  ∀ (s : State) (p o : Word), ∃ is : List Instr,
    (∀ i ∈ is, i = .offInc ∨ i = .offDec ∨ i = .pageInc ∨ i = .pageDec) ∧
    execSeq is s = .next { s with page := p, off := o, pc := s.pc + is.length }

/-- INC adds one to the current cell modulo 65536; n of them add n, so 65536 restore it. (States R120) -/
def Obligations.IncrementCell : Prop :=
  decode 0x2B#8 = some .inc ∧
  (∀ s : State, ∃ t, exec .inc s = .next t ∧ t = { s with pc := s.pc + 1, m := t.m } ∧
    ∀ p o, t.cellAt p o = if p = s.page ∧ o = s.off
      then BitVec.ofNat 16 (((s.cellAt s.page s.off).toNat + 1) % 65536) else s.cellAt p o) ∧
  (∀ (n : Nat) (s : State), ∃ t, execSeq (List.replicate n .inc) s = .next t ∧
    t = { s with pc := s.pc + n, m := t.m } ∧
    ∀ p o, t.cellAt p o = if p = s.page ∧ o = s.off
      then BitVec.ofNat 16 (((s.cellAt s.page s.off).toNat + n) % 65536) else s.cellAt p o) ∧
  (∀ s : State, ∃ t, execSeq (List.replicate 65536 .inc) s = .next t ∧ ∀ p o, t.cellAt p o = s.cellAt p o)

/-- DEC takes one from the current cell modulo 65536 and changes nothing else but pc. (States R121) -/
def Obligations.DecrementCell : Prop :=
  decode 0x2D#8 = some .dec ∧
  ∀ s : State, ∃ t, exec .dec s = .next t ∧ t = { s with pc := s.pc + 1, m := t.m } ∧
    ∀ p o, t.cellAt p o = if p = s.page ∧ o = s.off
      then BitVec.ofInt 16 ((((s.cellAt s.page s.off).toNat : Int) - 1) % 65536) else s.cellAt p o

/-- INC then DEC, and DEC then INC, leave every cell as it was. (From 42_alu.md section 2, Increment and decrement)
The spec marks it as derived. -/
def Obligations.IncrementAndDecrementCancel : Prop :=
  ∀ s : State,
    (∃ t, execSeq [.inc, .dec] s = .next t ∧ t = { s with pc := s.pc + 2, m := t.m } ∧
      ∀ p o, t.cellAt p o = s.cellAt p o) ∧
    (∃ t, execSeq [.dec, .inc] s = .next t ∧ t = { s with pc := s.pc + 2, m := t.m } ∧
      ∀ p o, t.cellAt p o = s.cellAt p o)

/-- ROR rotates the current cell right by one bit; sixteen rotations restore it. (States R122) -/
def Obligations.RotateCellRight : Prop :=
  decode 0x7E#8 = some .ror ∧
  (∀ s : State, ∃ t, exec .ror s = .next t ∧ t = { s with pc := s.pc + 1, m := t.m } ∧
    (∀ p o, ¬ (p = s.page ∧ o = s.off) → t.cellAt p o = s.cellAt p o) ∧
    (t.cellAt s.page s.off).toNat =
      ((s.cellAt s.page s.off).toNat >>> 1) ||| (((s.cellAt s.page s.off).toNat &&& 1) <<< 15) ∧
    (t.cellAt s.page s.off).getLsbD 15 = (s.cellAt s.page s.off).getLsbD 0 ∧
    (∀ i, i < 15 → (t.cellAt s.page s.off).getLsbD i = (s.cellAt s.page s.off).getLsbD (i + 1))) ∧
  (∀ s : State, ∃ t, execSeq (List.replicate 16 .ror) s = .next t ∧ ∀ p o, t.cellAt p o = s.cellAt p o)

/-- NAND writes 65535 - (c AND R) to the current cell; R is unchanged. (States R123) -/
def Obligations.NandCellWithRegister : Prop :=
  decode 0x26#8 = some .nand ∧
  ∀ s : State, ∃ t, exec .nand s = .next t ∧ t = { s with pc := s.pc + 1, m := t.m } ∧
    (∀ p o, ¬ (p = s.page ∧ o = s.off) → t.cellAt p o = s.cellAt p o) ∧
    (t.cellAt s.page s.off).toNat = 65535 - ((s.cellAt s.page s.off).toNat &&& s.r.toNat) ∧
    (∀ i, i < 16 → (t.cellAt s.page s.off).getLsbD i = !((s.cellAt s.page s.off).getLsbD i && s.r.getLsbD i))

/-- However often ROR is executed, a nonzero cell never becomes 0 and a zero cell stays 0. (From 42_alu.md section 3,
Rotate) The spec marks it as derived. -/
def Obligations.RotationNeverMakesZero : Prop :=
  ∀ (n : Nat) (s : State), ∃ t, execSeq (List.replicate n .ror) s = .next t ∧
    t = { s with pc := s.pc + n, m := t.m } ∧
    (t.cellAt s.page s.off = 0#16 ↔ s.cellAt s.page s.off = 0#16) ∧
    ∀ p o, ¬ (p = s.page ∧ o = s.off) → t.cellAt p o = s.cellAt p o

/-- NAND with the cell and R exchanged writes the same value. (From 42_alu.md section 4, NAND, 00_scope.md section 3)
The spec marks it as derived. -/
def Obligations.NandOperandOrderDoesNotMatter : Prop :=
  ∀ s s' : State, s.cellAt s.page s.off = s'.r → s.r = s'.cellAt s'.page s'.off →
    ∃ t t', exec .nand s = .next t ∧ exec .nand s' = .next t' ∧
      t.cellAt s.page s.off = t'.cellAt s'.page s'.off

/-- RLOAD then NAND leaves the bitwise complement of the cell: the next instruction uses the new R. (From
30_encoding.md section 6, Assembler syntax, 70_reset_and_hazards.md section 3, Software-visible hazards) -/
def Obligations.ComplementOfTheCell : Prop :=
  ∀ s : State, ∃ t, execSeq [.rload, .nand] s = .next t ∧
    t = { s with pc := s.pc + 2, r := s.cellAt s.page s.off, m := t.m } ∧
    ∀ p o, t.cellAt p o = if p = s.page ∧ o = s.off then ~~~ (s.cellAt s.page s.off) else s.cellAt p o

/-- BRZ jumps to land(J[pc]) when the current cell is 0 and otherwise advances; only pc changes. (States R141) -/
def Obligations.LoopBeginJumpsOnZero : Prop :=
  decode 0x5B#8 = some .brz ∧
  (∀ (s : State) (j : Nat), s.cellAt s.page s.off = 0#16 → jumpTarget s.jump s.pc = some j →
    exec .brz s = .next { s with pc := match s.landing with
      | .afterMatch => j + 1
      | .onMatch => j }) ∧
  (∀ s : State, s.cellAt s.page s.off ≠ 0#16 → exec .brz s = .next { s with pc := s.pc + 1 })

/-- BRNZ jumps to land(J[pc]) when the current cell is not 0 and otherwise advances; only pc changes. (States R142) -/
def Obligations.LoopEndJumpsOnNonzero : Prop :=
  decode 0x5D#8 = some .brnz ∧
  (∀ (s : State) (j : Nat), s.cellAt s.page s.off ≠ 0#16 → jumpTarget s.jump s.pc = some j →
    exec .brnz s = .next { s with pc := match s.landing with
      | .afterMatch => j + 1
      | .onMatch => j }) ∧
  (∀ s : State, s.cellAt s.page s.off = 0#16 → exec .brnz s = .next { s with pc := s.pc + 1 })

/-- Every instruction but a taken bracket advances pc by one, and no instruction sets pc outside 0..N. (States R84) -/
def Obligations.AdvanceOrBracketTarget : Prop :=
  ∀ (s : State) (b : Byte) (i : Instr), s.Inv → s.prog[s.pc]? = some b → decode b = some i →
    ∃ t, exec i s = .next t ∧ t.pc ≤ s.prog.length ∧
      (i ≠ .brz → i ≠ .brnz → t.pc = s.pc + 1) ∧
      (i = .brz → s.cellAt s.page s.off ≠ 0#16 → t.pc = s.pc + 1) ∧
      (i = .brnz → s.cellAt s.page s.off = 0#16 → t.pc = s.pc + 1) ∧
      (i = .brz ∧ s.cellAt s.page s.off = 0#16 ∨ i = .brnz ∧ s.cellAt s.page s.off ≠ 0#16 →
        ∃ j, jumpTarget s.jump s.pc = some j ∧
          (s.landing = .afterMatch → t.pc = j + 1) ∧ (s.landing = .onMatch → t.pc = j))

/-- An OnMatch run passes through the states of the AfterMatch run, with one extra step per taken bracket. (From
43_control.md section 3, Properties of control transfer, 92_eei_decisions.md D3) The spec marks it as derived. -/
def Obligations.OnMatchRunFollowsAfterMatchRun : Prop :=
  ∀ (n : Nat) (s t : State), s.Inv → s.landing = .afterMatch → stepN n s = .next t →
    stepN (n + takenIn n s) s.onMatch = .next t.onMatch

/-- RLOAD copies the current cell into R and changes nothing else but pc. (States R160) -/
def Obligations.LoadRegisterFromCell : Prop :=
  decode 0x5E#8 = some .rload ∧
  ∀ s : State, exec .rload s = .next { s with r := s.cellAt s.page s.off, pc := s.pc + 1 }

/-- RSTORE copies R into the current cell and changes nothing else but pc. (States R161) -/
def Obligations.StoreRegisterToCell : Prop :=
  decode 0x2A#8 = some .rstore ∧
  ∀ s : State, ∃ t, exec .rstore s = .next t ∧ t = { s with pc := s.pc + 1, m := t.m } ∧
    ∀ p o, t.cellAt p o = if p = s.page ∧ o = s.off then s.r else s.cellAt p o

/-- OUT writes the current cell to slot R of WO with its mark and appends it to WOLOG; nothing else but pc changes.
(States R162) -/
def Obligations.OutputCellToTape : Prop :=
  decode 0x2E#8 = some .out ∧
  ∀ s : State, ∃ t, exec .out s = .next t ∧
    t = { s with pc := s.pc + 1, wo := t.wo, woLog := s.woLog ++ [(s.r, s.cellAt s.page s.off)] } ∧
    (∀ a, slotValue t.wo a = if a = s.r then s.cellAt s.page s.off else slotValue s.wo a) ∧
    (∀ a, slotWritten t.wo a = if a = s.r then true else slotWritten s.wo a)

/-- IN writes element R of the read-only tape, or 0 beyond its end, to the current cell; the tape is not consumed.
(States R163) -/
def Obligations.InputCellFromTape : Prop :=
  decode 0x2C#8 = some .inp ∧
  ∀ s : State, ∃ t, exec .inp s = .next t ∧ t = { s with pc := s.pc + 1, m := t.m } ∧
    ∀ p o, t.cellAt p o = if p = s.page ∧ o = s.off
      then (if h : s.r.toNat < s.ro.length then s.ro[s.r.toNat] else 0#16) else s.cellAt p o

/-- MemRead returns the most recent write of that cell, or 0 if there was none. (States R41) -/
def Obligations.ReadReturnsTheMostRecentWrite : Prop :=
  ∀ (ws : List (Word × Word × Word)) (p o : Word),
    memRead (ws.foldl (fun m w => memWrite m w.1 w.2.1 w.2.2) State.reset.m) p o =
      match ws.reverse.find? (fun w => decide (w.1 = p ∧ w.2.1 = o)) with
      | some w => w.2.2
      | none => 0#16

/-- Two memories in canonical form that read alike everywhere are the same data. (From 10_state.md section 4, Data
memory, 20_memory.md section 2) Rests on the model's choice, log 1. -/
def Obligations.EqualContentsAreEqualMemories : Prop :=
  ∀ m₁ m₂ : Memory, Memory.wf m₁ → Memory.wf m₂ → (∀ p o, memRead m₁ p o = memRead m₂ p o) → m₁ = m₂

/-- TapeRead answers element a, or 0 at and beyond the tape's end. (States R46) -/
def Obligations.ReadTapeBeyondItsEndIsZero : Prop :=
  ∀ (ro : List Word) (a : Word), tapeRead ro a = if h : a.toNat < ro.length then ro[a.toNat] else 0#16

/-- In every state of the machine a slot of WO holds the last write WOLOG has for it, and is marked exactly if there
is one. (From 20_memory.md section 4, The write-only tape, 92_eei_decisions.md D5) Rests on a decision the spec marks
as its own. -/
def Obligations.SlotsHoldTheLastLoggedWrite : Prop :=
  ∀ (s : State) (a : Word), s.Inv →
    slotWritten s.wo a = s.woLog.any (fun e => decide (e.1 = a)) ∧
    slotValue s.wo a = match s.woLog.reverse.find? (fun e => decide (e.1 = a)) with
      | some e => e.2
      | none => 0#16

/-- Only the instructions the spec names write R, page, off, memory and the write-only tape; none writes the program,
the jump table or the read-only tape. (From 10_state.md sections 2 to 7, 10_state.md section 10, Which instruction
touches which state) -/
def Obligations.EachStatePieceHasItsOwnWriters : Prop :=
  ∀ (i : Instr) (s t : State), exec i s = .next t →
    (t.r ≠ s.r → i = .rload) ∧
    (t.page ≠ s.page → i = .setPage ∨ i = .pageInc ∨ i = .pageDec) ∧
    (t.off ≠ s.off → i = .offInc ∨ i = .offDec ∨ i = .setOff) ∧
    (t.m ≠ s.m → i = .inc ∨ i = .dec ∨ i = .inp ∨ i = .rstore ∨ i = .ror ∨ i = .nand) ∧
    (t.wo ≠ s.wo ∨ t.woLog ≠ s.woLog → i = .out) ∧
    t.prog = s.prog ∧ t.jump = s.jump ∧ t.ro = s.ro ∧ t.landing = s.landing

/-- A step writes at most one of off, page, R, the current cell or slot R of WO, besides pc. (From 40_engine.md
section 2, Fetch, decode, advance, 20_memory.md section 5) -/
def Obligations.AtMostOneWritePerStep : Prop :=
  ∀ s t : State, step s = .next t →
    t = { s with pc := t.pc, off := t.off } ∨
    t = { s with pc := t.pc, page := t.page } ∨
    t = { s with pc := t.pc, r := t.r } ∨
    (t = { s with pc := t.pc, m := t.m } ∧
      ∀ p o, ¬ (p = s.page ∧ o = s.off) → t.cellAt p o = s.cellAt p o) ∨
    (t = { s with pc := t.pc, wo := t.wo, woLog := s.woLog ++ [(s.r, s.cellAt s.page s.off)] } ∧
      ∀ a, a ≠ s.r → slotValue t.wo a = slotValue s.wo a ∧ slotWritten t.wo a = slotWritten s.wo a)

/-- No run changes the token array or the jump table. (States R31) -/
def Obligations.ProgramAndJumpTableNeverChange : Prop :=
  (∀ (landing : BracketLanding) (source : List Byte) (p : Program) (tape : List Word) (n : Nat) (t : State),
    load source = .loaded p → stepN n (construct landing p tape) = .next t → t.prog = p.toks ∧ t.jump = p.jump) ∧
  (∀ (n : Nat) (s t : State), stepN n s = .next t →
    t.prog = s.prog ∧ t.jump = s.jump ∧ t.ro = s.ro ∧ t.landing = s.landing)

/-- No run depends on what the write-only tape holds, and the log only grows. (From 10_state.md section 6, The
peripheral tapes, 20_memory.md section 4, The write-only tape) -/
def Obligations.WriteTapeIsNeverReadBack : Prop :=
  ∀ (n : Nat) (s t : State), stepN n s = .next t →
    ∃ writes : WriteLog, t.woLog = s.woLog ++ writes ∧
      t.wo = writes.foldl (fun wo e => slotWrite wo e.1 e.2) s.wo ∧
      ∀ (wo : WriteTape) (log : WriteLog),
        stepN n { s with wo := wo, woLog := log } =
          .next { t with wo := writes.foldl (fun wo e => slotWrite wo e.1 e.2) wo, woLog := log ++ writes }

/-- A read-only tape longer than 65536 values behaves as its first 65536. (From 20_memory.md section 3, The read-only
tape) The spec marks it as derived. -/
def Obligations.ReadTapeBeyond65536IsNeverRead : Prop :=
  ∀ (n : Nat) (s t : State), stepN n s = .next t →
    stepN n { s with ro := s.ro.take 65536 } = .next { t with ro := s.ro.take 65536 }

/-- RUN returns Halted with t exactly when t is the first halted state of the run, within the budget. (From
40_engine.md section 3, The core's operations, 40_engine.md section 4, The end of a run) Rests on the model's choice,
log 8. -/
def Obligations.RunReturnsTheFirstHaltedState : Prop :=
  ∀ (n : Nat) (s t : State), runToCompletion n s = .halted t ↔
    ∃ k, k ≤ n ∧ stepN k s = .next t ∧ t.pc = t.prog.length ∧
      ∀ j u, j < k → stepN j s = .next u → u.pc ≠ u.prog.length

/-- SNAPSHOT shows all the state a run can change, with the status. (From 40_engine.md section 3, The core's
operations, 92_eei_decisions.md D15) Rests on a decision the spec marks as its own. -/
def Obligations.SnapshotShowsTheWholeRunState : Prop :=
  (∀ s : State, (snapshot s).status = .halted ↔ s.pc = s.prog.length) ∧
  (∀ s t : State, s.prog = t.prog → s.jump = t.jump → s.ro = t.ro → s.landing = t.landing →
    (snapshot s = snapshot t ↔ s = t))

/-- A stop ends a run at the state before the stopping step; SNAPSHOT shows that state; no further step executes.
(From 60_exceptions.md section 4, Trap entry, return, nesting, delegation, 92_eei_decisions.md D17) Rests on the
model's choice, log 8. Rests on a decision the spec marks as its own. -/
def Obligations.FaultEndsTheRunAtTheStateBeforeIt : Prop :=
  ∀ (n : Nat) (s u : State),
    (∀ f : Fault, runToCompletion n s = .fault u f ↔ ∃ k, k < n ∧ stepN k s = .next u ∧ step u = .fault f) ∧
    (∀ r : Refusal, runToCompletion n s = .refused u r ↔ ∃ k, k < n ∧ stepN k s = .next u ∧ step u = .refused r) ∧
    (runToCompletion n s = .running u ↔ stepN n s = .next u ∧ u.pc ≠ u.prog.length) ∧
    (∀ f : Fault, runToCompletion n s = .fault u f → (runToCompletion n s).snapshot = snapshot u) ∧
    (∀ r : Refusal, runToCompletion n s = .refused u r → (runToCompletion n s).snapshot = snapshot u) ∧
    (runToCompletion n s = .running u → (runToCompletion n s).snapshot = snapshot u) ∧
    (runToCompletion n s = .halted u → (runToCompletion n s).snapshot = snapshot u)
end

