-- ==== Sys2Proof/Laws/Decode.lean ====
section
/-! SUPPORT. The decoder and the encoder are inverse to each other, byte by byte. -/

namespace Sys2Proof

/-- Encoding and then decoding an instruction gives it back. -/
@[simp] theorem decode_encode (i : Instr) : decode (encode i) = some i := by cases i <;> rfl

/-- Each token has one meaning and each meaning one token (30_encoding.md R72). -/
theorem decode_eq_some {b : Byte} {i : Instr} : decode b = some i ↔ b = encode i := by
  refine ⟨fun h => ?_, fun h => h ▸ decode_encode i⟩
  apply BitVec.eq_of_toNat_eq
  unfold decode at h
  split at h <;> first | (cases h; assumption) | exact absurd h (by simp)

theorem encode_inj {i j : Instr} : encode i = encode j ↔ i = j :=
  ⟨fun h => Option.some.inj ((decode_encode i).symm.trans (h ▸ decode_encode j)), fun h => h ▸ rfl⟩

@[simp] theorem isToken_encode (i : Instr) : isToken (encode i) = true := by simp [isToken]

/-- The kept bytes are exactly the instructions' symbols. -/
theorem isToken_iff {b : Byte} : isToken b = true ↔ ∃ i, b = encode i := by
  rw [isToken, Option.isSome_iff_exists]; simp only [decode_eq_some]

@[simp] theorem tokens_nil : tokens [] = [] := rfl

theorem mem_tokens {source : List Byte} {b : Byte} : b ∈ tokens source ↔ b ∈ source ∧ isToken b = true := by
  simp [tokens]

/-- Filtering a second time changes nothing. -/
@[simp] theorem tokens_tokens (source : List Byte) : tokens (tokens source) = tokens source := by
  simp [tokens]

@[simp] theorem tokens_append (a b : List Byte) : tokens (a ++ b) = tokens a ++ tokens b := by
  simp [tokens]

end Sys2Proof
end

