-- ==== Sys2Proof/Laws/SparseMap.lean ====
section
/-! SUPPORT. The laws of sparse maps: what is found after an insertion or an erasure, that both keep keys rising, and that two
rising maps with the same contents are the same list. -/

namespace Sys2Proof.Machine

variable {α : Type}

@[simp] theorem SparseMap.find_nil (a : Nat) : SparseMap.find ([] : List (Nat × α)) a = none := rfl

theorem SparseMap.find_cons (k : Nat) (w : α) (rest : List (Nat × α)) (a : Nat) :
    SparseMap.find ((k, w) :: rest) a = if a = k then some w else SparseMap.find rest a := rfl

/-- All that an insertion does to lookups, in any list. -/
theorem SparseMap.find_insert (l : List (Nat × α)) (a : Nat) (v : α) (b : Nat) :
    SparseMap.find (SparseMap.insert l a v) b = if b = a then some v else SparseMap.find l b := by
  induction l with
  | nil => simp [SparseMap.insert, SparseMap.find_cons]
  | cons e rest ih =>
    obtain ⟨k, w⟩ := e
    unfold SparseMap.insert
    split
    · simp only [SparseMap.find_cons]
    · split
      · rename_i h; subst h; simp only [SparseMap.find_cons]; split <;> rfl
      · simp only [SparseMap.find_cons, ih]; split <;> split <;> first | rfl | omega

/-- All that an erasure does to lookups, in any list. -/
theorem SparseMap.find_erase (l : List (Nat × α)) (a b : Nat) :
    SparseMap.find (SparseMap.erase l a) b = if b = a then none else SparseMap.find l b := by
  induction l with
  | nil => simp [SparseMap.erase]
  | cons e rest ih =>
    obtain ⟨k, w⟩ := e
    unfold SparseMap.erase
    split
    · rename_i h; subst h; rw [ih]; simp only [SparseMap.find_cons]; split <;> rfl
    · simp only [SparseMap.find_cons, ih]; split <;> split <;> first | rfl | omega

/-- What an insertion lists: the new pair, and pairs that were listed. -/
theorem SparseMap.mem_insert {l : List (Nat × α)} {a : Nat} {v : α} {e : Nat × α}
    (h : e ∈ SparseMap.insert l a v) : e = (a, v) ∨ e ∈ l := by
  induction l with
  | nil => simpa [SparseMap.insert] using h
  | cons x rest ih =>
    obtain ⟨k, w⟩ := x
    unfold SparseMap.insert at h
    split at h
    · simpa using h
    · split at h
      · rcases List.mem_cons.1 h with h | h
        · exact .inl h
        · exact .inr (List.mem_cons_of_mem _ h)
      · rcases List.mem_cons.1 h with h | h
        · exact .inr (h ▸ List.mem_cons_self)
        · exact (ih h).imp id (List.mem_cons_of_mem _)

/-- An erasure lists nothing new. -/
theorem SparseMap.mem_erase {l : List (Nat × α)} {a : Nat} {e : Nat × α}
    (h : e ∈ SparseMap.erase l a) : e ∈ l := by
  induction l with
  | nil => exact h
  | cons x rest ih =>
    obtain ⟨k, w⟩ := x
    unfold SparseMap.erase at h
    split at h
    · exact List.mem_cons_of_mem _ (ih h)
    · exact (List.mem_cons.1 h).elim (fun h => h ▸ List.mem_cons_self) (fun h => List.mem_cons_of_mem _ (ih h))

theorem SparseMap.rising_insert {l : List (Nat × α)} (h : SparseMap.Rising l) (a : Nat) (v : α) :
    SparseMap.Rising (SparseMap.insert l a v) := by
  induction l with
  | nil => simp [SparseMap.insert]
  | cons x rest ih =>
    obtain ⟨k, w⟩ := x
    obtain ⟨hk, hrest⟩ := List.pairwise_cons.1 h
    unfold SparseMap.insert
    split
    · rename_i hlt
      refine List.pairwise_cons.2 ⟨fun e he => ?_, h⟩
      rcases List.mem_cons.1 he with he | he
      · exact he ▸ hlt
      · exact Nat.lt_trans hlt (hk e he)
    · split
      · rename_i heq; subst heq; exact List.pairwise_cons.2 ⟨hk, hrest⟩
      · refine List.pairwise_cons.2 ⟨fun e he => ?_, ih hrest⟩
        rcases SparseMap.mem_insert he with he | he
        · subst he; show k < a; omega
        · exact hk e he

theorem SparseMap.rising_erase {l : List (Nat × α)} (h : SparseMap.Rising l) (a : Nat) :
    SparseMap.Rising (SparseMap.erase l a) := by
  induction l with
  | nil => exact h
  | cons x rest ih =>
    obtain ⟨k, w⟩ := x
    obtain ⟨hk, hrest⟩ := List.pairwise_cons.1 h
    unfold SparseMap.erase
    split
    · exact ih hrest
    · exact List.pairwise_cons.2 ⟨fun e he => hk e (SparseMap.mem_erase he), ih hrest⟩

/-- Where something is found it is listed. -/
theorem SparseMap.mem_of_find {l : List (Nat × α)} {a : Nat} {v : α} (h : SparseMap.find l a = some v) :
    (a, v) ∈ l := by
  induction l with
  | nil => simp at h
  | cons x rest ih =>
    obtain ⟨k, w⟩ := x
    rw [SparseMap.find_cons] at h
    split at h
    · rename_i hk; subst hk; cases h; exact List.mem_cons_self
    · exact List.mem_cons_of_mem _ (ih h)

/-- In a rising map what is listed is found. -/
theorem SparseMap.find_of_mem {l : List (Nat × α)} (hl : SparseMap.Rising l) {a : Nat} {v : α} (h : (a, v) ∈ l) :
    SparseMap.find l a = some v := by
  induction l with
  | nil => simp at h
  | cons x rest ih =>
    obtain ⟨k, w⟩ := x
    obtain ⟨hk, hrest⟩ := List.pairwise_cons.1 hl
    rw [SparseMap.find_cons]
    rcases List.mem_cons.1 h with h | h
    · cases h; simp
    · have : k < a := hk _ h
      rw [if_neg (by omega), ih hrest h]

/-- Equal contents are equal data: two rising maps that answer every lookup alike are the same list. -/
theorem SparseMap.ext_of_rising {l₁ l₂ : List (Nat × α)} (h₁ : SparseMap.Rising l₁) (h₂ : SparseMap.Rising l₂)
    (h : ∀ a, SparseMap.find l₁ a = SparseMap.find l₂ a) : l₁ = l₂ := by
  induction l₁ generalizing l₂ with
  | nil =>
    cases l₂ with
    | nil => rfl
    | cons y ys => have := h y.1; obtain ⟨k, w⟩ := y; simp [SparseMap.find_cons] at this
  | cons x xs ih =>
    obtain ⟨k, w⟩ := x
    cases l₂ with
    | nil => have := h k; simp [SparseMap.find_cons] at this
    | cons y ys =>
      obtain ⟨k', w'⟩ := y
      obtain ⟨hk, hxs⟩ := List.pairwise_cons.1 h₁
      obtain ⟨hk', hys⟩ := List.pairwise_cons.1 h₂
      have hkk : k = k' := by
        have a1 := SparseMap.mem_of_find ((h k).symm.trans (by simp [SparseMap.find_cons]) : _ = some w)
        have a2 := SparseMap.mem_of_find ((h k').trans (by simp [SparseMap.find_cons]) : _ = some w')
        rcases List.mem_cons.1 a1 with e1 | e1
        · cases e1; rfl
        · rcases List.mem_cons.1 a2 with e2 | e2
          · cases e2; rfl
          · have := hk' _ e1; have := hk _ e2; simp only at *; omega
      subst hkk
      have hw := h k
      simp only [SparseMap.find_cons, if_true] at hw
      cases hw
      refine congrArg _ (ih hxs hys fun a => ?_)
      by_cases ha : a = k
      · subst ha
        have none_of : ∀ {zs : List (Nat × α)}, (∀ e ∈ zs, a < e.1) → SparseMap.find zs a = none := by
          intro zs hz
          cases hf : SparseMap.find zs a with
          | none => rfl
          | some v => exact absurd (hz _ (SparseMap.mem_of_find hf)) (Nat.lt_irrefl _)
        rw [none_of hk, none_of hk']
      · have := h a
        rwa [SparseMap.find_cons, SparseMap.find_cons, if_neg ha, if_neg ha] at this

end Sys2Proof.Machine
end

