-- ==== Sys2Proof/Laws/State.lean ====
section
/-! SUPPORT. One lemma per field per update of the state, so that no later proof unfolds a record update. -/

namespace Sys2Proof.Machine

/-! `State.advance` -/

@[simp] theorem State.advance_pc (s : State) : s.advance.pc = s.pc + 1 := rfl
@[simp] theorem State.advance_page (s : State) : s.advance.page = s.page := rfl
@[simp] theorem State.advance_off (s : State) : s.advance.off = s.off := rfl
@[simp] theorem State.advance_r (s : State) : s.advance.r = s.r := rfl
@[simp] theorem State.advance_m (s : State) : s.advance.m = s.m := rfl
@[simp] theorem State.advance_ro (s : State) : s.advance.ro = s.ro := rfl
@[simp] theorem State.advance_wo (s : State) : s.advance.wo = s.wo := rfl
@[simp] theorem State.advance_woLog (s : State) : s.advance.woLog = s.woLog := rfl
@[simp] theorem State.advance_prog (s : State) : s.advance.prog = s.prog := rfl
@[simp] theorem State.advance_jump (s : State) : s.advance.jump = s.jump := rfl
@[simp] theorem State.advance_landing (s : State) : s.advance.landing = s.landing := rfl

/-! `State.jumpTo` -/

@[simp] theorem State.jumpTo_pc (s : State) (k : Nat) : (s.jumpTo k).pc = k := rfl
@[simp] theorem State.jumpTo_page (s : State) (k : Nat) : (s.jumpTo k).page = s.page := rfl
@[simp] theorem State.jumpTo_off (s : State) (k : Nat) : (s.jumpTo k).off = s.off := rfl
@[simp] theorem State.jumpTo_r (s : State) (k : Nat) : (s.jumpTo k).r = s.r := rfl
@[simp] theorem State.jumpTo_m (s : State) (k : Nat) : (s.jumpTo k).m = s.m := rfl
@[simp] theorem State.jumpTo_ro (s : State) (k : Nat) : (s.jumpTo k).ro = s.ro := rfl
@[simp] theorem State.jumpTo_wo (s : State) (k : Nat) : (s.jumpTo k).wo = s.wo := rfl
@[simp] theorem State.jumpTo_woLog (s : State) (k : Nat) : (s.jumpTo k).woLog = s.woLog := rfl
@[simp] theorem State.jumpTo_prog (s : State) (k : Nat) : (s.jumpTo k).prog = s.prog := rfl
@[simp] theorem State.jumpTo_jump (s : State) (k : Nat) : (s.jumpTo k).jump = s.jump := rfl
@[simp] theorem State.jumpTo_landing (s : State) (k : Nat) : (s.jumpTo k).landing = s.landing := rfl

/-! `State.setOff` -/

@[simp] theorem State.setOff_pc (s : State) (v : Word) : (s.setOff v).pc = s.pc := rfl
@[simp] theorem State.setOff_page (s : State) (v : Word) : (s.setOff v).page = s.page := rfl
@[simp] theorem State.setOff_off (s : State) (v : Word) : (s.setOff v).off = v := rfl
@[simp] theorem State.setOff_r (s : State) (v : Word) : (s.setOff v).r = s.r := rfl
@[simp] theorem State.setOff_m (s : State) (v : Word) : (s.setOff v).m = s.m := rfl
@[simp] theorem State.setOff_ro (s : State) (v : Word) : (s.setOff v).ro = s.ro := rfl
@[simp] theorem State.setOff_wo (s : State) (v : Word) : (s.setOff v).wo = s.wo := rfl
@[simp] theorem State.setOff_woLog (s : State) (v : Word) : (s.setOff v).woLog = s.woLog := rfl
@[simp] theorem State.setOff_prog (s : State) (v : Word) : (s.setOff v).prog = s.prog := rfl
@[simp] theorem State.setOff_jump (s : State) (v : Word) : (s.setOff v).jump = s.jump := rfl
@[simp] theorem State.setOff_landing (s : State) (v : Word) : (s.setOff v).landing = s.landing := rfl

/-! `State.setPage` -/

@[simp] theorem State.setPage_pc (s : State) (v : Word) : (s.setPage v).pc = s.pc := rfl
@[simp] theorem State.setPage_page (s : State) (v : Word) : (s.setPage v).page = v := rfl
@[simp] theorem State.setPage_off (s : State) (v : Word) : (s.setPage v).off = s.off := rfl
@[simp] theorem State.setPage_r (s : State) (v : Word) : (s.setPage v).r = s.r := rfl
@[simp] theorem State.setPage_m (s : State) (v : Word) : (s.setPage v).m = s.m := rfl
@[simp] theorem State.setPage_ro (s : State) (v : Word) : (s.setPage v).ro = s.ro := rfl
@[simp] theorem State.setPage_wo (s : State) (v : Word) : (s.setPage v).wo = s.wo := rfl
@[simp] theorem State.setPage_woLog (s : State) (v : Word) : (s.setPage v).woLog = s.woLog := rfl
@[simp] theorem State.setPage_prog (s : State) (v : Word) : (s.setPage v).prog = s.prog := rfl
@[simp] theorem State.setPage_jump (s : State) (v : Word) : (s.setPage v).jump = s.jump := rfl
@[simp] theorem State.setPage_landing (s : State) (v : Word) : (s.setPage v).landing = s.landing := rfl

/-! `State.setR` -/

@[simp] theorem State.setR_pc (s : State) (v : Word) : (s.setR v).pc = s.pc := rfl
@[simp] theorem State.setR_page (s : State) (v : Word) : (s.setR v).page = s.page := rfl
@[simp] theorem State.setR_off (s : State) (v : Word) : (s.setR v).off = s.off := rfl
@[simp] theorem State.setR_r (s : State) (v : Word) : (s.setR v).r = v := rfl
@[simp] theorem State.setR_m (s : State) (v : Word) : (s.setR v).m = s.m := rfl
@[simp] theorem State.setR_ro (s : State) (v : Word) : (s.setR v).ro = s.ro := rfl
@[simp] theorem State.setR_wo (s : State) (v : Word) : (s.setR v).wo = s.wo := rfl
@[simp] theorem State.setR_woLog (s : State) (v : Word) : (s.setR v).woLog = s.woLog := rfl
@[simp] theorem State.setR_prog (s : State) (v : Word) : (s.setR v).prog = s.prog := rfl
@[simp] theorem State.setR_jump (s : State) (v : Word) : (s.setR v).jump = s.jump := rfl
@[simp] theorem State.setR_landing (s : State) (v : Word) : (s.setR v).landing = s.landing := rfl

/-! `State.setCell` -/

@[simp] theorem State.setCell_pc (s : State) (v : Word) : (s.setCell v).pc = s.pc := rfl
@[simp] theorem State.setCell_page (s : State) (v : Word) : (s.setCell v).page = s.page := rfl
@[simp] theorem State.setCell_off (s : State) (v : Word) : (s.setCell v).off = s.off := rfl
@[simp] theorem State.setCell_r (s : State) (v : Word) : (s.setCell v).r = s.r := rfl
@[simp] theorem State.setCell_m (s : State) (v : Word) : (s.setCell v).m = memWrite s.m s.page s.off v := rfl
@[simp] theorem State.setCell_ro (s : State) (v : Word) : (s.setCell v).ro = s.ro := rfl
@[simp] theorem State.setCell_wo (s : State) (v : Word) : (s.setCell v).wo = s.wo := rfl
@[simp] theorem State.setCell_woLog (s : State) (v : Word) : (s.setCell v).woLog = s.woLog := rfl
@[simp] theorem State.setCell_prog (s : State) (v : Word) : (s.setCell v).prog = s.prog := rfl
@[simp] theorem State.setCell_jump (s : State) (v : Word) : (s.setCell v).jump = s.jump := rfl
@[simp] theorem State.setCell_landing (s : State) (v : Word) : (s.setCell v).landing = s.landing := rfl

/-! `State.tapeOut` -/

@[simp] theorem State.tapeOut_pc (s : State) (a : Word) (v : Word) : (s.tapeOut a v).pc = s.pc := rfl
@[simp] theorem State.tapeOut_page (s : State) (a : Word) (v : Word) : (s.tapeOut a v).page = s.page := rfl
@[simp] theorem State.tapeOut_off (s : State) (a : Word) (v : Word) : (s.tapeOut a v).off = s.off := rfl
@[simp] theorem State.tapeOut_r (s : State) (a : Word) (v : Word) : (s.tapeOut a v).r = s.r := rfl
@[simp] theorem State.tapeOut_m (s : State) (a : Word) (v : Word) : (s.tapeOut a v).m = s.m := rfl
@[simp] theorem State.tapeOut_ro (s : State) (a : Word) (v : Word) : (s.tapeOut a v).ro = s.ro := rfl
@[simp] theorem State.tapeOut_wo (s : State) (a : Word) (v : Word) : (s.tapeOut a v).wo = slotWrite s.wo a v := rfl
@[simp] theorem State.tapeOut_woLog (s : State) (a : Word) (v : Word) : (s.tapeOut a v).woLog = s.woLog ++ [(a, v)] := rfl
@[simp] theorem State.tapeOut_prog (s : State) (a : Word) (v : Word) : (s.tapeOut a v).prog = s.prog := rfl
@[simp] theorem State.tapeOut_jump (s : State) (a : Word) (v : Word) : (s.tapeOut a v).jump = s.jump := rfl
@[simp] theorem State.tapeOut_landing (s : State) (a : Word) (v : Word) : (s.tapeOut a v).landing = s.landing := rfl

/-! `State.withToken` -/

@[simp] theorem State.withToken_pc (s : State) (b : Byte) : (s.withToken b).pc = fetchIndex b := rfl
@[simp] theorem State.withToken_page (s : State) (b : Byte) : (s.withToken b).page = s.page := rfl
@[simp] theorem State.withToken_off (s : State) (b : Byte) : (s.withToken b).off = s.off := rfl
@[simp] theorem State.withToken_r (s : State) (b : Byte) : (s.withToken b).r = s.r := rfl
@[simp] theorem State.withToken_m (s : State) (b : Byte) : (s.withToken b).m = s.m := rfl
@[simp] theorem State.withToken_ro (s : State) (b : Byte) : (s.withToken b).ro = s.ro := rfl
@[simp] theorem State.withToken_wo (s : State) (b : Byte) : (s.withToken b).wo = s.wo := rfl
@[simp] theorem State.withToken_woLog (s : State) (b : Byte) : (s.withToken b).woLog = s.woLog := rfl
@[simp] theorem State.withToken_prog (s : State) (b : Byte) : (s.withToken b).prog = fetchText b := rfl
@[simp] theorem State.withToken_jump (s : State) (b : Byte) : (s.withToken b).jump = (matchBrackets (fetchText b)).getD [] := rfl
@[simp] theorem State.withToken_landing (s : State) (b : Byte) : (s.withToken b).landing = s.landing := rfl

/-! `construct` -/

@[simp] theorem construct_pc (l : BracketLanding) (p : Program) (tape : List Word) :
    (construct l p tape).pc = 0 := rfl
@[simp] theorem construct_page (l : BracketLanding) (p : Program) (tape : List Word) :
    (construct l p tape).page = 0#16 := rfl
@[simp] theorem construct_off (l : BracketLanding) (p : Program) (tape : List Word) :
    (construct l p tape).off = 0#16 := rfl
@[simp] theorem construct_r (l : BracketLanding) (p : Program) (tape : List Word) :
    (construct l p tape).r = 0#16 := rfl
@[simp] theorem construct_m (l : BracketLanding) (p : Program) (tape : List Word) :
    (construct l p tape).m = [] := rfl
@[simp] theorem construct_ro (l : BracketLanding) (p : Program) (tape : List Word) :
    (construct l p tape).ro = tape := rfl
@[simp] theorem construct_wo (l : BracketLanding) (p : Program) (tape : List Word) :
    (construct l p tape).wo = [] := rfl
@[simp] theorem construct_woLog (l : BracketLanding) (p : Program) (tape : List Word) :
    (construct l p tape).woLog = [] := rfl
@[simp] theorem construct_prog (l : BracketLanding) (p : Program) (tape : List Word) :
    (construct l p tape).prog = p.toks := rfl
@[simp] theorem construct_jump (l : BracketLanding) (p : Program) (tape : List Word) :
    (construct l p tape).jump = p.jump := rfl
@[simp] theorem construct_landing (l : BracketLanding) (p : Program) (tape : List Word) :
    (construct l p tape).landing = l := rfl

/-! `State.onMatch` -/

@[simp] theorem State.onMatch_pc (s : State) : s.onMatch.pc = s.pc := rfl
@[simp] theorem State.onMatch_page (s : State) : s.onMatch.page = s.page := rfl
@[simp] theorem State.onMatch_off (s : State) : s.onMatch.off = s.off := rfl
@[simp] theorem State.onMatch_r (s : State) : s.onMatch.r = s.r := rfl
@[simp] theorem State.onMatch_m (s : State) : s.onMatch.m = s.m := rfl
@[simp] theorem State.onMatch_ro (s : State) : s.onMatch.ro = s.ro := rfl
@[simp] theorem State.onMatch_wo (s : State) : s.onMatch.wo = s.wo := rfl
@[simp] theorem State.onMatch_woLog (s : State) : s.onMatch.woLog = s.woLog := rfl
@[simp] theorem State.onMatch_prog (s : State) : s.onMatch.prog = s.prog := rfl
@[simp] theorem State.onMatch_jump (s : State) : s.onMatch.jump = s.jump := rfl
@[simp] theorem State.onMatch_landing (s : State) : s.onMatch.landing = .onMatch := rfl

end Sys2Proof.Machine
end

