-- ==== Sys2Proof/Laws/Memory.lean ====
section
/-! SUPPORT. The laws of data memory and of the two tapes: reading after writing, and that every operation keeps the
canonical form. -/

namespace Sys2Proof.Machine

/-- Different pairs of page and offset name different cells (20_memory.md R51). -/
theorem cellAddr_inj {p o p' o' : Word} : cellAddr p o = cellAddr p' o' ↔ p = p' ∧ o = o' := by
  refine ⟨fun h => ?_, fun ⟨h₁, h₂⟩ => by rw [h₁, h₂]⟩
  have ho := o.isLt
  have ho' := o'.isLt
  simp only [cellAddr, Config.pageCells] at h
  exact ⟨BitVec.eq_of_toNat_eq (by omega), BitVec.eq_of_toNat_eq (by omega)⟩

/-- Every cell lies inside the address space (10_state.md R24). -/
theorem cellAddr_lt (p o : Word) : cellAddr p o < Config.memoryCells := by
  have hp := p.isLt
  have ho := o.isLt
  simp only [cellAddr, Config.memoryCells, Config.pageCells]
  omega

@[simp] theorem memRead_nil (p o : Word) : memRead [] p o = 0#16 := rfl

/-- All that a write does to reads (20_memory.md R41, R42), in any memory. -/
theorem memRead_memWrite (m : Memory) (p o v p' o' : Word) :
    memRead (memWrite m p o v) p' o' = if p' = p ∧ o' = o then v else memRead m p' o' := by
  have hc : (cellAddr p' o' = cellAddr p o) = (p' = p ∧ o' = o) := propext cellAddr_inj
  unfold memWrite memRead
  split
  · rename_i h
    rw [SparseMap.find_erase]
    simp only [hc]
    split <;> simp [h]
  · rw [SparseMap.find_insert]
    simp only [hc]
    split <;> simp

@[simp] theorem memRead_memWrite_same (m : Memory) (p o v : Word) : memRead (memWrite m p o v) p o = v := by
  simp [memRead_memWrite]

/-- A write keeps the canonical form. -/
theorem memWrite_wf {m : Memory} (h : Memory.wf m) (p o v : Word) : Memory.wf (memWrite m p o v) := by
  unfold memWrite
  split
  · exact ⟨SparseMap.rising_erase h.1 _, fun e he => h.2 e (SparseMap.mem_erase he)⟩
  · rename_i hv
    refine ⟨SparseMap.rising_insert h.1 _ _, fun e he => ?_⟩
    rcases SparseMap.mem_insert he with he | he
    · subst he; exact ⟨cellAddr_lt p o, hv⟩
    · exact h.2 e he

/-- The memory after reset has the canonical form. -/
theorem reset_mem_wf : Memory.wf State.reset.m := by decide

/-- A read answers the listed cell. -/
theorem memRead_of_mem {m : Memory} (h : Memory.wf m) {p o v : Word} (hm : (cellAddr p o, v) ∈ m) :
    memRead m p o = v := by
  unfold memRead; rw [SparseMap.find_of_mem h.1 hm]; rfl

@[simp] theorem slotWritten_nil (a : Word) : slotWritten [] a = false := rfl
@[simp] theorem slotValue_nil (a : Word) : slotValue [] a = 0#16 := rfl

/-- All that a tape write does to the written marks (20_memory.md R48). -/
theorem slotWritten_slotWrite (wo : WriteTape) (a v b : Word) :
    slotWritten (slotWrite wo a v) b = (decide (b = a) || slotWritten wo b) := by
  unfold slotWritten slotWrite
  rw [SparseMap.find_insert]
  by_cases h : b = a
  · simp [h]
  · rw [if_neg (fun e => h (BitVec.eq_of_toNat_eq e))]; simp [h]

/-- All that a tape write does to the slots' values (20_memory.md R48). -/
theorem slotValue_slotWrite (wo : WriteTape) (a v b : Word) :
    slotValue (slotWrite wo a v) b = if b = a then v else slotValue wo b := by
  unfold slotValue slotWrite
  rw [SparseMap.find_insert]
  by_cases h : b = a
  · simp [h]
  · rw [if_neg (fun e => h (BitVec.eq_of_toNat_eq e)), if_neg h]

/-- A further write in the log is a further write of the slots. -/
theorem slotsOfLog_append (log : WriteLog) (a v : Word) :
    slotsOfLog (log ++ [(a, v)]) = slotWrite (slotsOfLog log) a v := by
  simp [slotsOfLog]

end Sys2Proof.Machine
end

