-- ==== Sys2Proof/Laws/Exec.lean ====
section
/-! SUPPORT. What the shared operations and the sixteen meanings can do, said once. -/

namespace Sys2Proof.Machine

@[simp] theorem State.cell_eq (s : State) : s.cell = s.cellAt s.page s.off := rfl

/-- The brackets' test, as a fact about the current cell. -/
theorem cellIsZero_iff {s : State} : s.cellIsZero = true ↔ s.cellAt s.page s.off = 0#16 := by
  rw [State.cellIsZero, State.cell_eq, decide_eq_true_iff]

theorem cellIsZero_false_iff {s : State} : s.cellIsZero = false ↔ s.cellAt s.page s.off ≠ 0#16 := by
  rw [← Bool.not_eq_true, cellIsZero_iff]

/-- All that writing the current cell does to reads. -/
theorem State.cellAt_setCell (s : State) (v p o : Word) :
    (s.setCell v).cellAt p o = if p = s.page ∧ o = s.off then v else s.cellAt p o :=
  memRead_memWrite s.m s.page s.off v p o

/-- The advance of pc does not show in memory. -/
@[simp] theorem State.cellAt_advance (s : State) (p o : Word) : s.advance.cellAt p o = s.cellAt p o := rfl

@[simp] theorem State.cellAt_setR (s : State) (v p o : Word) : (s.setR v).cellAt p o = s.cellAt p o := rfl

@[simp] theorem State.cellAt_setOff (s : State) (v p o : Word) : (s.setOff v).cellAt p o = s.cellAt p o := rfl

@[simp] theorem State.cellAt_setPage (s : State) (v p o : Word) : (s.setPage v).cellAt p o = s.cellAt p o := rfl

@[simp] theorem State.cellAt_jumpTo (s : State) (k : Nat) (p o : Word) : (s.jumpTo k).cellAt p o = s.cellAt p o := rfl

@[simp] theorem State.cellAt_tapeOut (s : State) (a v p o : Word) : (s.tapeOut a v).cellAt p o = s.cellAt p o := rfl

/-- All that a taken bracket can do. -/
theorem takeBracket_cases (s : State) :
    (∃ j, jumpTarget s.jump s.pc = some j ∧ takeBracket s = .next (s.jumpTo (land s.landing j))) ∨
      (jumpTarget s.jump s.pc = none ∧ takeBracket s = .fault .noJumpEntry) := by
  unfold takeBracket
  cases jumpTarget s.jump s.pc with
  | none => exact .inr ⟨rfl, rfl⟩
  | some j => exact .inl ⟨j, rfl, rfl⟩

/-- A taken bracket that goes on has an entry in the jump table and lands as it says. -/
theorem takeBracket_next {s t : State} (h : takeBracket s = .next t) :
    ∃ j, jumpTarget s.jump s.pc = some j ∧ t = s.jumpTo (land s.landing j) := by
  rcases takeBracket_cases s with ⟨j, hj, e⟩ | ⟨-, e⟩ <;> rw [e] at h <;> cases h
  exact ⟨j, hj, rfl⟩

/-- What writing the current cell and advancing leaves: that cell, and everything else but pc as it was. Each of INC, DEC,
IN, RSTORE, ROR and NAND has this form. -/
theorem next_of_setCell {i : Instr} {s : State} {v : Word} (h : exec i s = .next (s.setCell v).advance) :
    ∃ t, exec i s = .next t ∧ t = { s with pc := s.pc + 1, m := t.m } ∧
      ∀ p o, t.cellAt p o = if p = s.page ∧ o = s.off then v else s.cellAt p o :=
  ⟨_, h, rfl, fun p o => by rw [State.cellAt_advance, State.cellAt_setCell]⟩

@[simp] theorem execSeq_nil (s : State) : execSeq [] s = .next s := rfl

/-- The first of some instructions, where it goes on. -/
theorem execSeq_cons {i : Instr} {is : List Instr} {s t : State} (h : exec i s = .next t) :
    execSeq (i :: is) s = execSeq is t := by
  simp [execSeq, h]

/-- The next states of an instruction, one form for each kind of write (40_engine.md R86). -/
inductive ExecShape (s : State) : State → Prop where
  | off (v : Word) : ExecShape s (s.setOff v).advance
  | page (v : Word) : ExecShape s (s.setPage v).advance
  | register (v : Word) : ExecShape s (s.setR v).advance
  | cell (v : Word) : ExecShape s (s.setCell v).advance
  | tape : ExecShape s (s.tapeOut s.r s.cell).advance
  | passed : ExecShape s s.advance
  | taken (j : Nat) (h : jumpTarget s.jump s.pc = some j) : ExecShape s (s.jumpTo (land s.landing j))

/-- Whatever an instruction does has one of these forms. -/
theorem exec_shape {i : Instr} {s t : State} (h : exec i s = .next t) : ExecShape s t := by
  have bracket : takeBracket s = .next t → ExecShape s t := fun h => by
    obtain ⟨j, hj, rfl⟩ := takeBracket_next h
    exact .taken j hj
  cases i with
  | offInc | offDec | setOff => cases h; exact .off _
  | setPage | pageInc | pageDec => cases h; exact .page _
  | inc | dec | inp | rstore | ror | nand => cases h; exact .cell _
  | rload => cases h; exact .register _
  | out => cases h; exact .tape
  | brz =>
    simp only [exec, execBrz] at h
    split at h
    · exact bracket h
    · cases h; exact .passed
  | brnz =>
    simp only [exec, execBrnz] at h
    split at h
    · cases h; exact .passed
    · exact bracket h

/-- The only stop of an instruction: a taken bracket without an entry in the jump table. -/
theorem exec_stop {i : Instr} {s : State} :
    (∃ t, exec i s = .next t) ∨
      (exec i s = .fault .noJumpEntry ∧ jumpTarget s.jump s.pc = none ∧
        (i = .brz ∧ s.cellIsZero = true ∨ i = .brnz ∧ s.cellIsZero = false)) := by
  have bracket : (∃ t, takeBracket s = .next t) ∨
      (takeBracket s = .fault .noJumpEntry ∧ jumpTarget s.jump s.pc = none) := by
    rcases takeBracket_cases s with ⟨j, -, e⟩ | ⟨hj, e⟩
    · exact .inl ⟨_, e⟩
    · exact .inr ⟨e, hj⟩
  cases i with
  | brz =>
    simp only [exec, execBrz]
    cases hz : s.cellIsZero
    · exact .inl ⟨_, rfl⟩
    · rcases bracket with h | ⟨h, hj⟩
      · exact .inl (by simpa using h)
      · exact .inr ⟨by simpa using h, hj, by simp⟩
  | brnz =>
    simp only [exec, execBrnz]
    cases hz : s.cellIsZero
    · rcases bracket with h | ⟨h, hj⟩
      · exact .inl (by simpa using h)
      · exact .inr ⟨by simpa using h, hj, by simp⟩
    · exact .inl ⟨_, rfl⟩
  | offInc | offDec | setOff | setPage | pageInc | pageDec | inc | dec | inp | rstore | ror | nand | rload | out =>
    exact .inl ⟨_, rfl⟩

end Sys2Proof.Machine
end

