-- ==== Sys2Proof/Laws/Loader.lean ====
section
/-! SUPPORT. What LOAD answers, and one step of its scan. -/

namespace Sys2Proof.Machine

/-- LOAD succeeds where the scan does, with the tokens kept and the table scanned. -/
theorem load_loaded_iff {source : List Byte} {p : Program} :
    load source = .loaded p ↔ p.toks = tokens source ∧ matchBrackets p.toks = some p.jump := by
  obtain ⟨toks, jump⟩ := p
  unfold load
  cases h : matchBrackets (tokens source) with
  | none =>
    refine ⟨fun e => by simp at e, fun ⟨e₁, e₂⟩ => ?_⟩
    simp only at e₁ e₂
    rw [e₁, h] at e₂
    cases e₂
  | some j =>
    constructor
    · intro e; cases e; exact ⟨rfl, h⟩
    · rintro ⟨e₁, e₂⟩
      simp only at e₁ e₂
      rw [e₁, h] at e₂
      cases e₂; cases e₁; rfl

/-- LOAD fails where the scan does. -/
theorem load_failed_iff {source : List Byte} :
    load source = .failed .unbalancedBrackets ↔ matchBrackets (tokens source) = none := by
  unfold load
  cases matchBrackets (tokens source) <;> simp

/-- The scan at a loop begin: its index is pushed. -/
theorem scanBrackets_brz (ts : List Byte) (k : Nat) (stack : List Nat) (j : JumpTable) :
    scanBrackets (encode .brz :: ts) k stack j = scanBrackets ts (k + 1) (k :: stack) j := by
  simp [scanBrackets]

/-- The scan at a loop end with a pending loop begin: the pair is entered. -/
theorem scanBrackets_brnz (ts : List Byte) (k i : Nat) (rest : List Nat) (j : JumpTable) :
    scanBrackets (encode .brnz :: ts) k (i :: rest) j = scanBrackets ts (k + 1) rest (recordPair j i k) := by
  simp [scanBrackets, encode_inj]

/-- The scan at a loop end with none pending: UnbalancedBrackets. -/
@[simp] theorem scanBrackets_brnz_nil (ts : List Byte) (k : Nat) (j : JumpTable) :
    scanBrackets (encode .brnz :: ts) k [] j = none := by
  simp [scanBrackets, encode_inj]

/-- The scan passes every other token. -/
theorem scanBrackets_other {t : Byte} (h₁ : t ≠ encode .brz) (h₂ : t ≠ encode .brnz) (ts : List Byte) (k : Nat)
    (stack : List Nat) (j : JumpTable) : scanBrackets (t :: ts) k stack j = scanBrackets ts (k + 1) stack j := by
  simp [scanBrackets, h₁, h₂]

/-- All that entering a pair does to the jump table. -/
theorem jumpTarget_recordPair (j : JumpTable) (i k a : Nat) :
    jumpTarget (recordPair j i k) a = if a = k then some i else if a = i then some k else jumpTarget j a := by
  simp [jumpTarget, recordPair, SparseMap.find_insert]

/-- Entering a pair keeps the jump table's keys rising. -/
theorem recordPair_rising {j : JumpTable} (h : SparseMap.Rising j) (i k : Nat) : SparseMap.Rising (recordPair j i k) :=
  SparseMap.rising_insert (SparseMap.rising_insert h i k) k i

/-- What a loaded program's construction has of it. -/
theorem construct_of_load {source : List Byte} {p : Program} (h : load source = .loaded p) (l : BracketLanding)
    (tape : List Word) : (construct l p tape).prog = tokens source ∧
      matchBrackets (construct l p tape).prog = some (construct l p tape).jump := by
  obtain ⟨h₁, h₂⟩ := load_loaded_iff.1 h
  exact ⟨h₁, h₂⟩

end Sys2Proof.Machine
end

