-- ==== Sys2Proof/Laws/PerInstr.lean ====
section
/-! SUPPORT. The family OpcodeRow: of each instruction, that it is well formed, that it decodes from its own word, by the
decoder of bytes and by that of table words, and that LOAD keeps its symbol. -/

namespace Sys2Proof.Laws

def OpcodeRow.Statement (i : Instr) : Prop :=
  i.wf = true ∧ decode (encode i) = some i ∧ decodeTableWord 8 (encode i).toNat = some i ∧ isToken (encode i) = true

theorem OpcodeRow.offInc : OpcodeRow.Statement .offInc := ⟨rfl, rfl, rfl, rfl⟩
theorem OpcodeRow.offDec : OpcodeRow.Statement .offDec := ⟨rfl, rfl, rfl, rfl⟩
theorem OpcodeRow.inc : OpcodeRow.Statement .inc := ⟨rfl, rfl, rfl, rfl⟩
theorem OpcodeRow.dec : OpcodeRow.Statement .dec := ⟨rfl, rfl, rfl, rfl⟩
theorem OpcodeRow.brz : OpcodeRow.Statement .brz := ⟨rfl, rfl, rfl, rfl⟩
theorem OpcodeRow.brnz : OpcodeRow.Statement .brnz := ⟨rfl, rfl, rfl, rfl⟩
theorem OpcodeRow.out : OpcodeRow.Statement .out := ⟨rfl, rfl, rfl, rfl⟩
theorem OpcodeRow.inp : OpcodeRow.Statement .inp := ⟨rfl, rfl, rfl, rfl⟩
theorem OpcodeRow.setOff : OpcodeRow.Statement .setOff := ⟨rfl, rfl, rfl, rfl⟩
theorem OpcodeRow.rload : OpcodeRow.Statement .rload := ⟨rfl, rfl, rfl, rfl⟩
theorem OpcodeRow.rstore : OpcodeRow.Statement .rstore := ⟨rfl, rfl, rfl, rfl⟩
theorem OpcodeRow.ror : OpcodeRow.Statement .ror := ⟨rfl, rfl, rfl, rfl⟩
theorem OpcodeRow.nand : OpcodeRow.Statement .nand := ⟨rfl, rfl, rfl, rfl⟩
theorem OpcodeRow.setPage : OpcodeRow.Statement .setPage := ⟨rfl, rfl, rfl, rfl⟩
theorem OpcodeRow.pageInc : OpcodeRow.Statement .pageInc := ⟨rfl, rfl, rfl, rfl⟩
theorem OpcodeRow.pageDec : OpcodeRow.Statement .pageDec := ⟨rfl, rfl, rfl, rfl⟩

end Sys2Proof.Laws
end

