-- ==== Sys2Proof/Laws/Step.lean ====
section
/-! SUPPORT. What one step can do, said once. -/

namespace Sys2Proof.Machine

theorem status_halted_iff {s : State} : s.status = .halted ↔ s.pc = s.prog.length := by
  unfold State.status; split <;> simp_all

theorem status_running_iff {s : State} : s.status = .running ↔ s.pc ≠ s.prog.length := by
  unfold State.status; split <;> simp_all

/-- A halted machine stays as it is. -/
theorem step_halted {s : State} (h : s.status = .halted) : step s = .next s := by
  simp [step, stepBody, h]

/-- A token under the program counter is found before the end of the program only. -/
theorem fetch_some_lt {s : State} {b : Byte} (h : fetch s = some b) : s.pc < s.prog.length :=
  (List.getElem?_eq_some_iff.1 h).1

/-- Where a token is fetched the machine is not halted. -/
theorem status_running_of_fetch {s : State} {b : Byte} (h : fetch s = some b) : s.status = .running := by
  have := fetch_some_lt h
  rw [status_running_iff]; omega

/-- The step of a fetched instruction is its meaning. -/
theorem step_exec {s : State} {b : Byte} {i : Instr} (hf : fetch s = some b) (hd : decode b = some i) :
    step s = exec i s := by
  simp [step, stepBody, status_running_of_fetch hf, hf, hd]

/-- The step on a byte that is no token. -/
theorem step_not_a_token {s : State} {b : Byte} (hf : fetch s = some b) (hd : decode b = none) :
    step s = .refused (.notAToken b) := by
  simp [step, stepBody, status_running_of_fetch hf, hf, hd]

/-- The step where no token is fetched on a machine that is not halted. -/
theorem step_past_program {s : State} (hs : s.status = .running) (hf : fetch s = none) :
    step s = .fault .pcPastProgram := by
  simp [step, stepBody, hs, hf]

/-- All that a step that goes on can have done. -/
theorem step_next {s t : State} (h : step s = .next t) :
    (s.status = .halted ∧ t = s) ∨
      ∃ b i, fetch s = some b ∧ decode b = some i ∧ s.pc < s.prog.length ∧ exec i s = .next t := by
  cases hs : s.status with
  | halted => rw [step_halted hs] at h; cases h; exact .inl ⟨rfl, rfl⟩
  | running =>
    cases hf : fetch s with
    | none => rw [step_past_program hs hf] at h; cases h
    | some b =>
      cases hd : decode b with
      | none => rw [step_not_a_token hf hd] at h; cases h
      | some i => exact .inr ⟨b, i, rfl, hd, fetch_some_lt hf, by rwa [step_exec hf hd] at h⟩

/-- The inputs of every step stay as they are (10_state.md R28, R31; 20_memory.md R58). -/
theorem exec_inputs {i : Instr} {s t : State} (h : exec i s = .next t) :
    t.prog = s.prog ∧ t.jump = s.jump ∧ t.ro = s.ro ∧ t.landing = s.landing := by
  cases exec_shape h <;> exact ⟨rfl, rfl, rfl, rfl⟩

/-- Which brackets are taken: a loop begin at a zero cell, a loop end at a nonzero one, and no other instruction. -/
theorem bracketTaken_of_fetch {s : State} {b : Byte} {i : Instr} (hf : fetch s = some b) (hd : decode b = some i) :
    bracketTaken s = ((decide (i = .brz) && s.cellIsZero) || (decide (i = .brnz) && !s.cellIsZero)) := by
  unfold bracketTaken
  rw [hf, Option.bind_some, hd]
  cases i <;> simp

/-- A halted machine takes no bracket. -/
theorem bracketTaken_halted {s : State} (h : s.status = .halted) : bracketTaken s = false := by
  have hf : fetch s = none := by rw [status_halted_iff] at h; simp [fetch, h]
  simp [bracketTaken, hf]

@[simp] theorem stepN_zero (s : State) : stepN 0 s = .next s := rfl

theorem stepN_succ {n : Nat} {s t : State} (h : step s = .next t) : stepN (n + 1) s = stepN n t := by
  simp [stepN, h]

/-- A run of some steps that goes on begins with a step that goes on. -/
theorem stepN_succ_next {n : Nat} {s t : State} (h : stepN (n + 1) s = .next t) :
    ∃ u, step s = .next u ∧ stepN n u = .next t := by
  unfold stepN at h
  cases hs : step s with
  | next u => rw [hs] at h; exact ⟨u, rfl, h⟩
  | fault f => rw [hs] at h; cases h
  | refused r => rw [hs] at h; cases h

@[simp] theorem RunResult.state_halted (s : State) : (RunResult.halted s).state = s := rfl
@[simp] theorem RunResult.state_running (s : State) : (RunResult.running s).state = s := rfl
@[simp] theorem RunResult.state_fault (s : State) (f : Fault) : (RunResult.fault s f).state = s := rfl
@[simp] theorem RunResult.state_refused (s : State) (r : Refusal) : (RunResult.refused s r).state = s := rfl

/-- A run returns at once from a halted state. -/
theorem runToCompletion_halted {s : State} (n : Nat) (h : s.status = .halted) : runToCompletion n s = .halted s := by
  cases n <;> simp [runToCompletion, h]

/-- A run without budget stands where it is. -/
theorem runToCompletion_zero {s : State} (h : s.status = .running) : runToCompletion 0 s = .running s := by
  simp [runToCompletion, h]

/-- A run from a state that is not halted begins with the step's outcome. -/
theorem runToCompletion_next {s t : State} (n : Nat) (hs : s.status = .running) (h : step s = .next t) :
    runToCompletion (n + 1) s = runToCompletion n t := by
  simp [runToCompletion, hs, h]

/-- A fault is no outcome of a halted machine. -/
theorem status_running_of_fault {s : State} {f : Fault} (h : step s = .fault f) : s.status = .running := by
  cases hs : s.status with
  | running => rfl
  | halted => rw [step_halted hs] at h; cases h

/-- A refusal is no outcome of a halted machine. -/
theorem status_running_of_refused {s : State} {r : Refusal} (h : step s = .refused r) : s.status = .running := by
  cases hs : s.status with
  | running => rfl
  | halted => rw [step_halted hs] at h; cases h

/-- A fault ends a run at the state before the faulting step (60_exceptions.md R186). -/
theorem runToCompletion_fault {s : State} {f : Fault} (n : Nat) (h : step s = .fault f) :
    runToCompletion (n + 1) s = .fault s f := by
  simp [runToCompletion, status_running_of_fault h, h]

/-- A refusal ends a run at the state before the refused step. -/
theorem runToCompletion_refused {s : State} {r : Refusal} (n : Nat) (h : step s = .refused r) :
    runToCompletion (n + 1) s = .refused s r := by
  simp [runToCompletion, status_running_of_refused h, h]

end Sys2Proof.Machine
end

