-- ==== Sys2Proof/Tests/Slice0.lean ====
section
/-! SUPPORT. Tests. Expected results are the spec's own: the `encoding` bits of the opcode map (30_encoding.md R72), the vectors
of 95_test_vectors.md (named V-… in each comment), and hand calculation from the rules named. Then the witnesses: for
every statement with hypotheses, a state and operands that meet them all. -/

namespace Sys2Proof.Tests

open Sys2Proof.Machine

/-! ## Helpers -/

/-- The state a step went on to, if it did. -/
def after (o : StepResult) : Option State :=
  match o with
  | .next t => some t
  | .fault _ => none
  | .refused _ => none

/-- A machine at a page and offset whose current cell is `c`, with `R` = `r`. -/
def atCell (page off c r : Word) : State :=
  { State.reset with page := page, off := off, r := r, m := memWrite [] page off c }

/-- The current cell of `atCell 0 0 c r` after an instruction. -/
def cellAfter (i : Instr) (c r : Word) : Option Word := (after (exec i (atCell 0 0 c r))).map State.cell

/-- The machine constructed from a text that LOAD accepts. -/
def built (landing : BracketLanding) (text : List Byte) : State :=
  match load text with
  | .loaded p => construct landing p []
  | .failed _ => State.reset

/-- The text of V-LD-8: brackets nested two deep, spaces and letters as comments. -/
def nestedText : List Byte :=
  [0x2B, 0x20, 0x5B, 0x20, 0x2D, 0x20, 0x5B, 0x20, 0x5D, 0x20, 0x5D, 0x20, 0x23, 0x20, 0x68, 0x65, 0x6C, 0x6C, 0x6F]

/-- What V-LD-8 says LOAD makes of it. -/
def nestedProgram : Program :=
  { toks := [0x2B, 0x5B, 0x2D, 0x5B, 0x5D, 0x5D, 0x23], jump := [(1, 5), (3, 4), (4, 3), (5, 1)] }

/-! ## Well-formedness: each check refuses an ill-formed term (there is no ill-formed instruction: R70, R73) -/

theorem test_wf_balanced : Balanced [.inc, .brz, .dec, .brz, .brnz, .brnz, .setPage] := by decide
theorem test_wf_refuses_early_close : ¬ NoEarlyClose [.brnz, .brz] ∧ NoOpenLeft [.brnz, .brz] := by decide
theorem test_wf_refuses_open_left : ¬ NoOpenLeft [.brz, .brz, .brnz] ∧ NoEarlyClose [.brz, .brz, .brnz] := by decide
theorem test_wf_memory_refuses_zero : ¬ Memory.wf [(3, 0#16)] := by decide
theorem test_wf_memory_refuses_order : ¬ Memory.wf [(4, 1#16), (3, 1#16)] := by decide
theorem test_wf_memory_refuses_range : ¬ Memory.wf [(4294967296, 1#16)] ∧ Memory.wf [(4294967295, 1#16)] := by decide
theorem test_wf_instr : ([.offInc, .brz, .out, .pageDec] : List Instr).all Instr.wf = true := by decide

/-! ## Decoding: the words of the opcode map, bit by bit -/

theorem test_decode_offInc : decode 0b00111110#8 = some .offInc ∧ encode .offInc = 0x3E#8 := by decide
theorem test_decode_offDec : decode 0b00111100#8 = some .offDec ∧ encode .offDec = 0x3C#8 := by decide
theorem test_decode_inc : decode 0b00101011#8 = some .inc ∧ encode .inc = 0x2B#8 := by decide
theorem test_decode_dec : decode 0b00101101#8 = some .dec ∧ encode .dec = 0x2D#8 := by decide
theorem test_decode_brz : decode 0b01011011#8 = some .brz ∧ encode .brz = 0x5B#8 := by decide
theorem test_decode_brnz : decode 0b01011101#8 = some .brnz ∧ encode .brnz = 0x5D#8 := by decide
theorem test_decode_out : decode 0b00101110#8 = some .out ∧ encode .out = 0x2E#8 := by decide
theorem test_decode_inp : decode 0b00101100#8 = some .inp ∧ encode .inp = 0x2C#8 := by decide
theorem test_decode_setOff : decode 0b01000000#8 = some .setOff ∧ encode .setOff = 0x40#8 := by decide
theorem test_decode_rload : decode 0b01011110#8 = some .rload ∧ encode .rload = 0x5E#8 := by decide
theorem test_decode_rstore : decode 0b00101010#8 = some .rstore ∧ encode .rstore = 0x2A#8 := by decide
theorem test_decode_ror : decode 0b01111110#8 = some .ror ∧ encode .ror = 0x7E#8 := by decide
theorem test_decode_nand : decode 0b00100110#8 = some .nand ∧ encode .nand = 0x26#8 := by decide
theorem test_decode_setPage : decode 0b00100011#8 = some .setPage ∧ encode .setPage = 0x23#8 := by decide
theorem test_decode_pageInc : decode 0b01111101#8 = some .pageInc ∧ encode .pageInc = 0x7D#8 := by decide
theorem test_decode_pageDec : decode 0b01111011#8 = some .pageDec ∧ encode .pageDec = 0x7B#8 := by decide
/-- R73: the neighbours of tokens, and the letters of comments, are no tokens. -/
theorem test_decode_refuses : ([0x00, 0x0A, 0x20, 0x22, 0x24, 0x2F, 0x3D, 0x3F, 0x5C, 0x61, 0x7C, 0x7F, 0xBE, 0xFF] : List Byte).all
    (fun b => decode b = none) = true := by decide
/-- Exactly 16 of the 256 bytes are tokens (R60, R73). -/
theorem test_decode_count : ((List.range 256).filter (fun n => isToken (BitVec.ofNat 8 n))).length = 16 := by decide
theorem test_decode_table_word : decodeTableWord 8 0x7B = some .pageDec ∧ decodeTableWord 8 0x41 = none := by decide

/-! ## Loader: V-LD-1 to V-LD-8 -/

theorem test_load_empty : load [] = .loaded { toks := [], jump := [] } := by decide
theorem test_load_comments : load [0x61, 0x5B, 0x62, 0x5D, 0x63] = .loaded { toks := [0x5B, 0x5D], jump := [(0, 1), (1, 0)] } := by
  decide
theorem test_load_lone_close : load [0x5D] = .failed .unbalancedBrackets := by decide
theorem test_load_lone_open : load [0x5B] = .failed .unbalancedBrackets := by decide
theorem test_load_open_left : load [0x5B, 0x5B, 0x5D] = .failed .unbalancedBrackets := by decide
theorem test_load_close_left : load [0x5B, 0x5D, 0x5D] = .failed .unbalancedBrackets := by decide
theorem test_load_crossed : load [0x5D, 0x5B] = .failed .unbalancedBrackets := by decide
theorem test_load_nested : load nestedText = .loaded nestedProgram := by decide

/-! ## Instructions -/

/-- V-PTR-2: no carry into the page. -/
theorem test_offInc_wraps : (after (exec .offInc (atCell 7 65535 0 0))).map (fun t => (t.page, t.off, t.pc)) = some (7, 0, 1) := by
  decide
/-- V-PTR-3: no borrow from the page. -/
theorem test_offDec_wraps : (after (exec .offDec (atCell 0 0 0 0))).map (fun t => (t.page, t.off, t.pc)) = some (0, 65535, 1) := by
  decide
/-- V-PTR-6. -/
theorem test_setOff : (after (exec .setOff (atCell 2 10 0x1234 0))).map (fun t => (t.page, t.off, t.pc)) = some (2, 0x1234, 1) := by
  decide
/-- V-PTR-9. -/
theorem test_setPage : (after (exec .setPage (atCell 0 0 3 0))).map (fun t => (t.page, t.off, t.pc)) = some (3, 0, 1) := by decide
/-- V-PTR-10: a cell of another page is read where it stands. -/
theorem test_setPage_zero : (after (exec .setPage (atCell 1 4 0 0))).map (fun t => (t.page, t.off)) = some (0, 4) := by decide
/-- V-PTR-4. -/
theorem test_pageInc_wraps : (after (exec .pageInc (atCell 65535 9 0 0))).map (fun t => (t.page, t.off, t.pc)) = some (0, 9, 1) := by
  decide
/-- V-PTR-5. -/
theorem test_pageDec_wraps : (after (exec .pageDec (atCell 0 5 0 0))).map (fun t => (t.page, t.off, t.pc)) = some (65535, 5, 1) := by
  decide
/-- V-ALU-1, V-ALU-2. -/
theorem test_inc : cellAfter .inc 0 0 = some 1 ∧ cellAfter .inc 0xFFFF 0 = some 0 := by decide
/-- R120 corner case, log 1: the cell that wraps to zero is unlisted again. -/
theorem test_inc_unlists : (after (exec .inc (atCell 0 0 0xFFFF 0))).map State.m = some [] := by decide
/-- V-ALU-3, V-ALU-4. -/
theorem test_dec : cellAfter .dec 0 0 = some 0xFFFF ∧ cellAfter .dec 1 0 = some 0 := by decide
/-- V-ALU-5 to V-ALU-9. -/
theorem test_ror_bits : ([0, 1, 2, 3, 0x8000] : List Word).map (fun c => cellAfter .ror c 0) =
    [some 0, some 0x8000, some 1, some 0x8001, some 0x4000] := by decide
/-- V-ALU-10 to V-ALU-14. -/
theorem test_ror_words : ([0xFFFF, 0xFFFE, 0x1234, 0xABCD, 0x5555] : List Word).map (fun c => cellAfter .ror c 0) =
    [some 0xFFFF, some 0x7FFF, some 0x091A, some 0xD5E6, some 0xAAAA] := by decide
/-- V-ALU-15 to V-ALU-18. -/
theorem test_nand_edges : cellAfter .nand 0 0 = some 0xFFFF ∧ cellAfter .nand 0 0x1234 = some 0xFFFF ∧
    cellAfter .nand 0xFFFF 0 = some 0xFFFF ∧ cellAfter .nand 0xFFFF 0xFFFF = some 0 := by decide
/-- V-ALU-19, V-ALU-20, V-ALU-22, V-ALU-23. -/
theorem test_nand_words : cellAfter .nand 0xF0F0 0xFF00 = some 0x0FFF ∧ cellAfter .nand 0x1234 0x1234 = some 0xEDCB ∧
    cellAfter .nand 0x00FF 0x0F0F = some 0xFFF0 ∧ cellAfter .nand 0xAAAA 0x5555 = some 0xFFFF := by decide
/-- V-RIO-1. -/
theorem test_rload : (after (exec .rload (atCell 0 0 0x00FF 0))).map (fun t => (t.r, t.cell, t.pc)) = some (0x00FF, 0x00FF, 1) := by
  decide
/-- V-RIO-3. -/
theorem test_rstore : (after (exec .rstore (atCell 1 2 9 7))).map (fun t => (t.cellAt 1 2, t.r)) = some (7, 7) := by decide
/-- V-RIO-4 and V-RIO-5: the slot is overwritten, the log keeps both. -/
theorem test_out_overwrites :
    (after (exec .out { atCell 0 0 0x0043 0 with wo := [(0, 0x0042)], woLog := [(0, 0x0042)] })).map (fun t => (t.wo, t.woLog)) =
      some ([(0, 0x0043)], [(0, 0x0042), (0, 0x0043)]) := by decide
/-- V-RIO-6: writing 0 marks the slot. -/
theorem test_out_zero_marks :
    (after (exec .out (atCell 0 0 0 3))).map (fun t => (slotWritten t.wo 3, slotValue t.wo 3, slotWritten t.wo 4)) =
      some (true, 0, false) := by decide
/-- V-RIO-7 and V-RIO-8. -/
theorem test_inp : (after (exec .inp { atCell 0 0 9 1 with ro := [0x00FF, 0x0F0F] })).map State.cell = some 0x0F0F ∧
    (after (exec .inp { atCell 0 0 9 2 with ro := [0x00FF, 0x0F0F] })).map State.cell = some 0 := by decide
/-- V-RIO-9: an empty tape reads 0. -/
theorem test_inp_empty_tape : cellAfter .inp 9 0 = some 0 := by decide
/-- 43_control.md R141 example: from pc 0 of a loop entered at zero, past its end (AfterMatch); its end itself (OnMatch). -/
theorem test_brz_taken : (after (step (built .afterMatch [0x5B, 0x2B, 0x5D]))).map State.pc = some 3 ∧
    (after (step (built .onMatch [0x5B, 0x2B, 0x5D]))).map State.pc = some 2 := by decide
theorem test_brz_enters : (after (exec .brz (atCell 0 0 1 0))).map State.pc = some 1 := by decide
/-- 43_control.md R142 example: the loop of R142 at pc 3 with cell 1 goes back to 2 (AfterMatch), to 1 (OnMatch). -/
theorem test_brnz_taken :
    (after (step { built .afterMatch [0x2B, 0x5B, 0x2D, 0x5D] with pc := 3, m := [(0, 1)] })).map State.pc = some 2 ∧
    (after (step { built .onMatch [0x2B, 0x5B, 0x2D, 0x5D] with pc := 3, m := [(0, 1)] })).map State.pc = some 1 := by decide
theorem test_brnz_leaves : (after (exec .brnz (atCell 0 0 0 0))).map State.pc = some 1 := by decide

/-! ## The step -/

/-- 40_engine.md R92: a halted machine stays as it is. -/
theorem test_step_halted : step State.reset = .next State.reset ∧ State.reset.status = .halted := ⟨rfl, rfl⟩
/-- 30_encoding.md R73: a byte that is no token is refused. -/
theorem test_step_refuses_byte : step { State.reset with prog := [0x41] } = .refused (.notAToken 0x41) := rfl
/-- Log 4: beyond N there is no rule. -/
theorem test_step_past_program : step { State.reset with pc := 1 } = .fault .pcPastProgram := rfl
/-- Log 4: a taken bracket without an entry. -/
theorem test_step_no_entry : step { State.reset with prog := [0x5B] } = .fault .noJumpEntry := rfl
/-- The words of both brackets, placed for the next fetch, run. -/
theorem test_fetch_word_brackets : (after (step (State.reset.withFetchWord 8 0x5B))).map State.pc = some 2 ∧
    (after (step (State.reset.withFetchWord 8 0x5D))).map State.pc = some 2 := by decide
/-- 40_engine.md R93 on the two-token loop of V-CTL-2: one step AfterMatch, two OnMatch. -/
theorem test_run_empty_loop : runToCompletion 1 (built .afterMatch [0x5B, 0x5D]) =
      .halted { built .afterMatch [0x5B, 0x5D] with pc := 2 } ∧
    runToCompletion 1 (built .onMatch [0x5B, 0x5D]) = .running { built .onMatch [0x5B, 0x5D] with pc := 1 } := by decide
theorem test_core_step : Sys2Proof.core.reset = State.reset := rfl

/-! ## Witnesses: hypotheses of the statements, met together -/

/-- The nested program of V-LD-8, constructed. -/
def nested (pc : Nat) (m : Memory) : State := { construct .afterMatch nestedProgram [7, 8] with pc := pc, m := m }

theorem nested_inv {pc : Nat} {m : Memory} (h : pc ≤ 7) (hm : Memory.wf m) : (nested pc m).Inv :=
  ⟨h, show ∀ b ∈ nestedProgram.toks, isToken b = true by decide, rfl, hm, rfl⟩

theorem witness_CommentBytesHaveNoEffect : ∀ i : Instr, (0x20#8 : Byte) ≠ encode i := by
  intro i; cases i <;> decide
theorem witness_LoadSucceedsExactlyOnBalancedBrackets :
    Balanced (decodeText nestedText) ∧ ¬ Balanced (decodeText [0x5D, 0x5B]) := by decide
/-- Also for LoadedBracketsNestStrictly, both clauses: the loop begins at 1 and 3, one inside the other. -/
theorem witness_JumpTableDefinedExactlyAtBrackets : load nestedText = .loaded nestedProgram ∧
    nestedProgram.toks[1]? = some (encode .brz) ∧ nestedProgram.toks[3]? = some (encode .brz) ∧ 1 < 3 ∧
    jumpTarget nestedProgram.jump 1 = some 5 ∧ jumpTarget nestedProgram.jump 3 = some 4 ∧
    nestedProgram.toks[6]? = some (encode .setPage) ∧ jumpTarget nestedProgram.jump 6 = none := by decide
/-- Two loops side by side: the other alternative of the nesting clause. -/
theorem witness_LoadedBracketsNestStrictly :
    ∃ p, load [0x5B, 0x5D, 0x5B, 0x5D] = .loaded p ∧ p.toks[0]? = some (encode .brz) ∧ p.toks[2]? = some (encode .brz) ∧
      jumpTarget p.jump 0 = some 1 ∧ jumpTarget p.jump 2 = some 3 := ⟨_, rfl, by decide⟩
theorem witness_StrictMatchingIsUnique : ∃ p f, load [0x5B, 0x5D] = .loaded p ∧ StrictMatching p.toks f := by
  refine ⟨_, fun k => if k = 0 then some 1 else if k = 1 then some 0 else none, rfl, ?_, ?_, ?_, ?_⟩
  · intro k
    rcases k with _ | _ | k
    · exact ⟨fun _ => .inl rfl, fun _ => ⟨1, rfl⟩⟩
    · exact ⟨fun _ => .inr rfl, fun _ => ⟨0, rfl⟩⟩
    · refine ⟨fun ⟨j, h⟩ => ?_, fun h => ?_⟩
      · simp at h
      · rcases h with h | h <;> exact absurd (List.getElem?_eq_some_iff.1 h).1 (by simp [tokens, isToken, decode])
  · intro i j h
    rcases i with _ | _ | i <;> simp at h <;> subst h <;> rfl
  · intro i j h
    rcases i with _ | _ | i
    · simp at h; subst h; exact .inl ⟨rfl, by decide, rfl⟩
    · simp at h; subst h; exact .inr ⟨rfl, by decide, rfl⟩
    · simp at h
  · intro i j i' j' h h' hij hij' hii
    rcases i with _ | _ | i <;> rcases i' with _ | _ | i' <;> simp at h h' <;> omega
/-- The boundary targets: J[1] = 0, where OnMatch lands at 0, and J[0] = 1 = N - 1, where AfterMatch lands at N. -/
theorem witness_BracketTargetsLieInTheProgram : ∃ p, load [0x5B, 0x5D] = .loaded p ∧ jumpTarget p.jump 1 = some 0 ∧
    jumpTarget p.jump 0 = some 1 ∧ p.toks.length = 2 := ⟨_, rfl, by decide⟩
theorem witness_ConstructGivesTheInitialState : load nestedText = .loaded nestedProgram := by decide
theorem witness_ConstructMeetsTheInvariant : ∃ p, load [0x5B, 0x5D] = .loaded p := ⟨_, rfl⟩
/-- A step that takes a bracket, at the last bracket of the program. -/
theorem witness_EveryStepKeepsTheInvariant :
    (nested 5 [(0, 1)]).Inv ∧ step (nested 5 [(0, 1)]) = .next (nested 2 [(0, 1)]) :=
  ⟨nested_inv (by decide) (by decide), rfl⟩
/-- The last index below N. -/
theorem witness_StepIsTotalBelowTheEnd : (nested 6 []).Inv ∧ (nested 6 []).pc < (nested 6 []).prog.length :=
  ⟨nested_inv (by decide) (by decide), by decide⟩
theorem witness_NoReachableStateStops : Reachable (nested 1 [(0, 1)]) :=
  .step (s := nested 0 []) (.construct (source := nestedText) .afterMatch [7, 8] (by decide)) rfl
theorem witness_RuntimeFaultIsNeverRaised : exec .brz (atCell 0 0 0 0) = .fault .noJumpEntry := rfl
theorem witness_StepRunsTheDecodedInstruction : (nested 6 []).prog[6]? = some (0x23#8 : Byte) ∧
    decode 0x23#8 = some .setPage ∧ Instr.setPage.wf = true := by decide
/-- Both clauses; the step of the second reaches N. -/
theorem witness_StepOperationReportsTheStatus : State.reset.pc = State.reset.prog.length ∧
    (nested 6 []).pc < (nested 6 []).prog.length ∧ step (nested 6 []) = .next (nested 7 []) := ⟨rfl, by decide, rfl⟩
/-- All four clauses. -/
theorem witness_StatesWithoutARuleStopByName :
    (({ State.reset with pc := 1 } : State).prog.length < ({ State.reset with pc := 1 } : State).pc) ∧
    (({ State.reset with prog := [0x41] } : State).prog[0]? = some (0x41#8 : Byte) ∧ isToken 0x41#8 = false) ∧
    (jumpTarget (atCell 0 0 0 0).jump (atCell 0 0 0 0).pc = none ∧ (atCell 0 0 0 0).cellAt 0 0 = 0#16) ∧
    (jumpTarget (atCell 0 0 1 0).jump (atCell 0 0 1 0).pc = none ∧ (atCell 0 0 1 0).cellAt 0 0 ≠ 0#16) := by decide
theorem witness_FetchWordIsRunNext : State.reset.Inv := ⟨by decide, by decide, rfl, by decide, rfl⟩
theorem witness_OffsetMovesNeverCarryIntoThePage :
    ∀ i ∈ ([.offInc, .offDec, .offDec] : List Instr), i = .offInc ∨ i = .offDec := by decide
theorem witness_NandOperandOrderDoesNotMatter : (atCell 0 0 0xF0F0 0xFF00).cellAt 0 0 = (atCell 1 2 0xFF00 0xF0F0).r ∧
    (atCell 0 0 0xF0F0 0xFF00).r = (atCell 1 2 0xFF00 0xF0F0).cellAt 1 2 := by decide
/-- Both clauses. -/
theorem witness_LoopBeginJumpsOnZero : ((nested 1 []).cellAt 0 0 = 0#16 ∧ jumpTarget (nested 1 []).jump 1 = some 5) ∧
    (nested 1 [(0, 1)]).cellAt 0 0 ≠ 0#16 := by decide
/-- Both clauses. -/
theorem witness_LoopEndJumpsOnNonzero :
    ((nested 5 [(0, 1)]).cellAt 0 0 ≠ 0#16 ∧ jumpTarget (nested 5 [(0, 1)]).jump 5 = some 1) ∧
    (nested 5 []).cellAt 0 0 = 0#16 := by decide
/-- Each clause: an instruction that is no bracket, at the last index; each bracket not taken; each bracket taken, on a
machine of each landing. -/
theorem witness_AdvanceOrBracketTarget :
    ((nested 6 []).Inv ∧ (nested 6 []).prog[6]? = some (encode .setPage)) ∧
    ((nested 1 [(0, 1)]).Inv ∧ (nested 1 []).prog[1]? = some (encode .brz) ∧ (nested 1 [(0, 1)]).cellAt 0 0 ≠ 0#16) ∧
    ((nested 5 []).Inv ∧ (nested 5 []).prog[5]? = some (encode .brnz) ∧ (nested 5 []).cellAt 0 0 = 0#16) ∧
    ((nested 1 []).Inv ∧ (nested 1 []).cellAt 0 0 = 0#16 ∧ (nested 1 []).landing = .afterMatch) ∧
    ((nested 5 [(0, 1)]).onMatch.Inv ∧ (nested 5 [(0, 1)]).onMatch.cellAt 0 0 ≠ 0#16 ∧
      (nested 5 [(0, 1)]).onMatch.landing = .onMatch) :=
  ⟨⟨nested_inv (by decide) (by decide), rfl⟩, ⟨nested_inv (by decide) (by decide), rfl, by decide⟩,
    ⟨nested_inv (by decide) (by decide), rfl, rfl⟩, ⟨nested_inv (by decide) (by decide), rfl, rfl⟩,
    ⟨⟨by decide, by decide, rfl, by decide, rfl⟩, by decide, rfl⟩⟩
/-- Two steps, the first of which takes a bracket. -/
theorem witness_OnMatchRunFollowsAfterMatchRun : (nested 1 []).Inv ∧ (nested 1 []).landing = .afterMatch ∧
    stepN 2 (nested 1 []) = .next (nested 7 []) ∧ takenIn 2 (nested 1 []) = 1 :=
  ⟨nested_inv (by decide) (by decide), rfl, rfl, by decide⟩
/-- The highest address of the space. -/
theorem witness_EqualContentsAreEqualMemories : Memory.wf [(0, 5), (4294967295, 6)] ∧
    memRead [(0, 5), (4294967295, 6)] 65535 65535 = 6#16 := by decide
theorem witness_SlotsHoldTheLastLoggedWrite :
    ({ nested 6 [] with wo := [(3, 9)], woLog := [(3, 8), (3, 9)] } : State).Inv :=
  ⟨by decide, by decide, rfl, by decide, rfl⟩
/-- Each clause: a change of R, page, off, memory, and the write-only tape. -/
theorem witness_EachStatePieceHasItsOwnWriters :
    (∃ t, exec .rload (atCell 0 0 1 0) = .next t ∧ t.r ≠ (atCell 0 0 1 0).r) ∧
    (∃ t, exec .pageDec (atCell 0 0 1 0) = .next t ∧ t.page ≠ (atCell 0 0 1 0).page) ∧
    (∃ t, exec .setOff (atCell 0 0 1 0) = .next t ∧ t.off ≠ (atCell 0 0 1 0).off) ∧
    (∃ t, exec .ror (atCell 0 0 1 0) = .next t ∧ t.m ≠ (atCell 0 0 1 0).m) ∧
    (∃ t, exec .out (atCell 0 0 1 0) = .next t ∧ t.wo ≠ (atCell 0 0 1 0).wo) :=
  ⟨⟨_, rfl, by decide⟩, ⟨_, rfl, by decide⟩, ⟨_, rfl, by decide⟩, ⟨_, rfl, by decide⟩, ⟨_, rfl, by decide⟩⟩
theorem witness_AtMostOneWritePerStep : step (nested 0 []) = .next (nested 1 [(0, 1)]) := rfl
/-- Both clauses. -/
theorem witness_ProgramAndJumpTableNeverChange : load nestedText = .loaded nestedProgram ∧
    stepN 2 (construct .afterMatch nestedProgram [7, 8]) = .next (nested 2 [(0, 1)]) := ⟨by decide, rfl⟩
/-- A run that writes the tape. -/
theorem witness_WriteTapeIsNeverReadBack : ∃ t, stepN 1 (built .afterMatch [0x2E]) = .next t ∧ t.woLog = [(0, 0)] :=
  ⟨_, rfl, by decide⟩
/-- A tape longer than 65536 values. -/
theorem witness_ReadTapeBeyond65536IsNeverRead :
    65536 < (5#16 :: List.replicate 65536 6#16).length ∧
    ∃ t, stepN 1 { built .afterMatch [0x2C] with ro := 5#16 :: List.replicate 65536 6#16 } = .next t ∧ t.pc = 1 := by
  refine ⟨by rw [List.length_cons, List.length_replicate]; omega, _, rfl, rfl⟩

theorem witness_RunReturnsTheFirstHaltedState : runToCompletion 3 (nested 6 []) = .halted (nested 7 []) := rfl
/-- Each clause: a run that faults at its second step, one that is refused there, one still running, one halted. The first two
show the state before that step, where INC has made the cell 1 (60_exceptions.md R186). -/
theorem witness_FaultEndsTheRunAtTheStateBeforeIt :
    runToCompletion 5 { State.reset with prog := [0x2B, 0x5D] } =
      .fault { State.reset with prog := [0x2B, 0x5D], pc := 1, m := [(0, 1)] } .noJumpEntry ∧
    runToCompletion 5 { State.reset with prog := [0x2B, 0x41] } =
      .refused { State.reset with prog := [0x2B, 0x41], pc := 1, m := [(0, 1)] } (.notAToken 0x41) ∧
    runToCompletion 1 (nested 0 []) = .running (nested 1 [(0, 1)]) ∧
    runToCompletion 1 (nested 6 []) = .halted (nested 7 []) ∧
    (runToCompletion 5 { State.reset with prog := [0x2B, 0x5D] }).snapshot =
      { pc := 1, page := 0, off := 0, r := 0, m := [(0, 1)], wo := [], woLog := [], status := .running } := by decide
theorem witness_SnapshotShowsTheWholeRunState : (nested 0 []).prog = (nested 1 [(0, 1)]).prog ∧
    (nested 0 []).jump = (nested 1 [(0, 1)]).jump ∧ (nested 0 []).ro = (nested 1 [(0, 1)]).ro ∧
    (nested 0 []).landing = (nested 1 [(0, 1)]).landing ∧ (nested 7 []).pc = (nested 7 []).prog.length :=
  ⟨rfl, rfl, rfl, rfl, rfl⟩

end Sys2Proof.Tests
end

section
/-! PROOFS of the family 10_state.md: the state CONSTRUCT makes, and the inputs that no run changes. -/

namespace Sys2Proof.Proofs.StateFamily

open Sys2Proof.Machine

/-! ## The constructed state -/

/-- No cell of a constructed state is listed, so each reads as an untouched one (10_state.md R24, R34). -/
@[simp] theorem construct_cellAt (l : BracketLanding) (p : Program) (tape : List Word) (pg o : Word) :
    (construct l p tape).cellAt pg o = 0#16 := by
  rw [State.cellAt, construct_m, memRead_nil]

/-- No slot of `WO` is written at construction (10_state.md R34). -/
@[simp] theorem construct_slotWritten (l : BracketLanding) (p : Program) (tape : List Word) (a : Word) :
    slotWritten (construct l p tape).wo a = false := by
  rw [construct_wo, slotWritten_nil]

@[simp] theorem construct_slotValue (l : BracketLanding) (p : Program) (tape : List Word) (a : Word) :
    slotValue (construct l p tape).wo a = 0#16 := by
  rw [construct_wo, slotValue_nil]

/-- Settles O9: each clause is the law of `construct` for its field. That LOAD produced the program is not needed: CONSTRUCT
treats every program alike. -/
theorem constructGivesTheInitialState : Obligations.ConstructGivesTheInitialState := by
  intro l source p tape _
  exact ⟨construct_pc l p tape, construct_page l p tape, construct_off l p tape, construct_r l p tape,
    construct_cellAt l p tape, construct_ro l p tape,
    fun a => ⟨construct_slotWritten l p tape a, construct_slotValue l p tape a⟩,
    construct_woLog l p tape, construct_prog l p tape, construct_jump l p tape⟩

/-! ## What no run changes -/

/-- What every step keeps, a run of any length keeps. -/
theorem stepN_keeps {P : State → Prop} (keeps : ∀ {u v : State}, P u → step u = .next v → P v) {n : Nat} {s t : State}
    (hs : P s) (h : stepN n s = .next t) : P t := by
  induction n generalizing s with
  | zero => cases h; exact hs
  | succ n ih =>
    obtain ⟨u, hu, hrest⟩ := stepN_succ_next h
    exact ih (keeps hs hu) hrest

/-- `t` has the inputs of `s`: those fixed at LOAD (10_state.md R31), the tape given at CONSTRUCT (R28), and the machine's
landing. -/
def SameInputs (s t : State) : Prop :=
  t.prog = s.prog ∧ t.jump = s.jump ∧ t.ro = s.ro ∧ t.landing = s.landing

theorem SameInputs.refl (s : State) : SameInputs s s := ⟨rfl, rfl, rfl, rfl⟩

theorem SameInputs.trans {s t u : State} (h₁ : SameInputs s t) (h₂ : SameInputs t u) : SameInputs s u := by
  obtain ⟨hprog₁, hjump₁, hro₁, hlanding₁⟩ := h₁
  obtain ⟨hprog₂, hjump₂, hro₂, hlanding₂⟩ := h₂
  exact ⟨hprog₂.trans hprog₁, hjump₂.trans hjump₁, hro₂.trans hro₁, hlanding₂.trans hlanding₁⟩

/-- A step of a halted machine changes nothing, and no instruction writes an input. -/
theorem step_sameInputs {s t : State} (h : step s = .next t) : SameInputs s t := by
  rcases step_next h with ⟨-, rfl⟩ | ⟨b, i, -, -, -, hexec⟩
  · exact .refl t
  · exact exec_inputs hexec

theorem stepN_sameInputs {n : Nat} {s t : State} (h : stepN n s = .next t) : SameInputs s t :=
  stepN_keeps (P := SameInputs s) (fun hsu huv => hsu.trans (step_sameInputs huv)) (.refl s) h

/-- Settles O51, by induction on the number of steps (`stepN_keeps`): the first clause is the second one read at a
constructed state, whose inputs are the program's. -/
theorem programAndJumpTableNeverChange : Obligations.ProgramAndJumpTableNeverChange := by
  refine ⟨fun l source p tape n t _ hrun => ?_, fun n s t hrun => stepN_sameInputs hrun⟩
  obtain ⟨hprog, hjump, -, -⟩ := stepN_sameInputs hrun
  exact ⟨hprog.trans (construct_prog l p tape), hjump.trans (construct_jump l p tape)⟩

end Sys2Proof.Proofs.StateFamily
end

section
/-! PROOFS of the family 20_memory.md: what a read of data memory and of the read-only tape answers. -/

namespace Sys2Proof.Proofs.MemoryFamily

open Sys2Proof.Machine

/-! ## Data memory after a list of writes -/

/-- The memory after the writes (page, offset, value), made one after another. -/
def writeAll (m : Memory) (ws : List (Word × Word × Word)) : Memory :=
  ws.foldl (fun m w => memWrite m w.1 w.2.1 w.2.2) m

/-- The value of the most recent write of the cell at page `p` and offset `o` (20_memory.md R41), if there is one. -/
def mostRecentWrite (ws : List (Word × Word × Word)) (p o : Word) : Option Word :=
  (ws.reverse.find? (fun w => decide (w.1 = p ∧ w.2.1 = o))).map (fun w => w.2.2)

@[simp] theorem writeAll_nil (m : Memory) : writeAll m [] = m := rfl

@[simp] theorem writeAll_concat (m : Memory) (ws : List (Word × Word × Word)) (w : Word × Word × Word) :
    writeAll m (ws ++ [w]) = memWrite (writeAll m ws) w.1 w.2.1 w.2.2 :=
  List.foldl_concat _ m w ws

@[simp] theorem mostRecentWrite_nil (p o : Word) : mostRecentWrite [] p o = none := rfl

/-- A further write hides the earlier ones of its own cell, and no others. -/
theorem mostRecentWrite_concat (ws : List (Word × Word × Word)) (w : Word × Word × Word) (p o : Word) :
    mostRecentWrite (ws ++ [w]) p o = if p = w.1 ∧ o = w.2.1 then some w.2.2 else mostRecentWrite ws p o := by
  rw [mostRecentWrite, List.reverse_concat]
  by_cases h : p = w.1 ∧ o = w.2.1
  · obtain ⟨rfl, rfl⟩ := h
    rw [List.find?_cons_of_pos (by simp), if_pos ⟨rfl, rfl⟩, Option.map_some]
  · have hother : ¬ (w.1 = p ∧ w.2.1 = o) := fun ⟨hp, ho⟩ => h ⟨hp.symm, ho.symm⟩
    rw [List.find?_cons_of_neg (by simpa using hother), if_neg h, mostRecentWrite]

/-- From any memory, a read answers the most recent write of its cell, or what the cell held before all of them. The
induction takes the last write off the list, since that is the one the read meets first (`memRead_memWrite`). -/
theorem memRead_writeAll (m : Memory) (ws : List (Word × Word × Word)) (p o : Word) :
    memRead (writeAll m ws) p o = (mostRecentWrite ws p o).getD (memRead m p o) := by
  induction ws using List.reverseRecOn with
  | nil => rw [writeAll_nil, mostRecentWrite_nil, Option.getD_none]
  | append_singleton ws w ih =>
    rw [writeAll_concat, memRead_memWrite, mostRecentWrite_concat, ih]
    split
    · rfl
    · rfl

/-- Settles O45: `memRead_writeAll` at the memory after reset, where every cell reads 0. -/
theorem readReturnsTheMostRecentWrite : Obligations.ReadReturnsTheMostRecentWrite := by
  intro ws p o
  have hread : memRead (writeAll State.reset.m ws) p o = (mostRecentWrite ws p o).getD 0#16 :=
    memRead_writeAll State.reset.m ws p o
  rw [writeAll, mostRecentWrite] at hread
  rw [hread]
  cases ws.reverse.find? (fun w => decide (w.1 = p ∧ w.2.1 = o)) with
  | none => rfl
  | some w => rfl

/-! ## The read-only tape -/

theorem tapeRead_of_lt {ro : List Word} {a : Word} (h : a.toNat < ro.length) : tapeRead ro a = ro[a.toNat] := by
  rw [tapeRead, List.getElem?_eq_getElem h, Option.getD_some]

theorem tapeRead_of_length_le {ro : List Word} {a : Word} (h : ro.length ≤ a.toNat) : tapeRead ro a = 0#16 := by
  rw [tapeRead, List.getElem?_eq_none h, Option.getD_none]

/-- Settles O47: below the tape's length, and at and beyond it. -/
theorem readTapeBeyondItsEndIsZero : Obligations.ReadTapeBeyondItsEndIsZero := by
  intro ro a
  by_cases h : a.toNat < ro.length
  · rw [dif_pos h, tapeRead_of_lt h]
  · rw [dif_neg h, tapeRead_of_length_le (Nat.le_of_not_lt h)]

end Sys2Proof.Proofs.MemoryFamily
end

section
/-! PROOFS of the family 30_encoding.md: what LOAD drops, the programs it accepts, and the jump table it builds. -/

namespace Sys2Proof.Proofs.EncodingFamily

open Sys2Proof.Machine

/-! ## The filter -/

theorem isToken_eq_false {c : Byte} (h : ∀ i : Instr, c ≠ encode i) : isToken c = false := by
  rw [← Bool.not_eq_true, isToken_iff]
  exact fun ⟨i, hi⟩ => h i hi

theorem tokens_cons_of_comment {c : Byte} (h : ∀ i : Instr, c ≠ encode i) (rest : List Byte) :
    tokens (c :: rest) = tokens rest :=
  List.filter_cons_of_neg (by simp [isToken_eq_false h])

@[simp] theorem tokens_cons_encode (i : Instr) (rest : List Byte) :
    tokens (encode i :: rest) = encode i :: tokens rest :=
  List.filter_cons_of_pos (isToken_encode i)

/-- LOAD looks at the tokens of a text only. -/
theorem load_eq_of_tokens_eq {a b : List Byte} (h : tokens a = tokens b) : load a = load b := by
  rw [load, load, h]

/-- The tokens of a text are the symbols of its instructions. -/
theorem tokens_eq_encodeText (source : List Byte) : tokens source = encodeText (decodeText source) := by
  induction source with
  | nil => rfl
  | cons b rest ih =>
    cases hb : decode b with
    | none =>
      have hcomment : ∀ i : Instr, b ≠ encode i := fun i hi => by simp [decode_eq_some.2 hi] at hb
      rw [tokens_cons_of_comment hcomment, ih, decodeText, decodeText, List.filterMap_cons_none hb]
    | some i =>
      have hdecode : decodeText (b :: rest) = i :: decodeText rest := List.filterMap_cons_some hb
      rw [hdecode, decode_eq_some.1 hb, tokens_cons_encode, ih, encodeText, encodeText, List.map_cons]

/-- Settles O3: the filter passes over a comment byte, and LOAD sees nothing but what the filter keeps. -/
theorem commentBytesHaveNoEffect : Obligations.CommentBytesHaveNoEffect := by
  refine ⟨fun before after c hc => ?_, fun before after i => ?_⟩
  · have htokens : tokens (before ++ c :: after) = tokens (before ++ after) := by
      rw [tokens_append, tokens_append, tokens_cons_of_comment hc]
    exact ⟨htokens, load_eq_of_tokens_eq htokens⟩
  · rw [tokens_append, tokens_cons_encode]

/-! ## Which texts LOAD accepts -/

/-- Balanced brackets (30_encoding.md R68) after a piece of text that left `pending` loops open. -/
def BalancedFrom (pending : Nat) (is : List Instr) : Prop :=
  (∀ n, n < is.length + 1 → countBrnz (is.take n) ≤ pending + countBrz (is.take n)) ∧
    pending + countBrz is = countBrnz is

theorem balancedFrom_zero_iff {is : List Instr} : BalancedFrom 0 is ↔ Balanced is := by
  simp only [BalancedFrom, Nat.zero_add]

theorem balancedFrom_nil_iff {pending : Nat} : BalancedFrom pending [] ↔ pending = 0 := by
  simp [BalancedFrom, countBrz, countBrnz]

theorem countBrz_cons (i : Instr) (is : List Instr) : countBrz (i :: is) = countBrz is + countBrz [i] := by
  rw [countBrz, countBrz, countBrz, List.count_cons, List.count_singleton]

theorem countBrnz_cons (i : Instr) (is : List Instr) : countBrnz (i :: is) = countBrnz is + countBrnz [i] := by
  rw [countBrnz, countBrnz, countBrnz, List.count_cons, List.count_singleton]

/-- The first instruction changes the number of open loops by its own counts, and may not close more than are open. -/
theorem balancedFrom_cons_iff {pending pending' : Nat} {i : Instr} {is : List Instr}
    (h : pending + countBrz [i] = pending' + countBrnz [i]) :
    BalancedFrom pending (i :: is) ↔ BalancedFrom pending' is := by
  constructor
  · rintro ⟨hearly, htotal⟩
    refine ⟨fun n hn => ?_, by rw [countBrz_cons, countBrnz_cons] at htotal; omega⟩
    have hnext := hearly (n + 1) (Nat.succ_lt_succ hn)
    rw [List.take_succ_cons, countBrz_cons, countBrnz_cons] at hnext
    omega
  · rintro ⟨hearly, htotal⟩
    refine ⟨fun n hn => ?_, by rw [countBrz_cons, countBrnz_cons]; omega⟩
    cases n with
    | zero => exact Nat.zero_le _
    | succ n =>
      have hprev := hearly n (Nat.lt_of_succ_lt_succ hn)
      rw [List.take_succ_cons, countBrz_cons, countBrnz_cons]
      omega

/-- A loop end with no loop open breaks the balance at once. -/
theorem not_balancedFrom_zero_brnz (is : List Instr) : ¬ BalancedFrom 0 (.brnz :: is) := by
  rintro ⟨hearly, -⟩
  have hone := hearly 1 (by simp)
  simp [countBrz, countBrnz] at hone

/-- The scan succeeds exactly where the rest of the text ends the loops pending on the stack, whatever was entered so
far. -/
theorem scanBrackets_isSome_iff (is : List Instr) (k : Nat) (stack : List Nat) (j : JumpTable) :
    (scanBrackets (encodeText is) k stack j).isSome ↔ BalancedFrom stack.length is := by
  induction is generalizing k stack j with
  | nil =>
    rw [balancedFrom_nil_iff, List.length_eq_zero_iff]
    simp [encodeText, scanBrackets]
  | cons i is ih =>
    rw [encodeText, List.map_cons, ← encodeText]
    by_cases hbrz : i = .brz
    · subst hbrz
      rw [scanBrackets_brz, ih]
      exact (balancedFrom_cons_iff rfl).symm
    · by_cases hbrnz : i = .brnz
      · subst hbrnz
        cases stack with
        | nil => simpa using not_balancedFrom_zero_brnz is
        | cons a rest =>
          rw [scanBrackets_brnz, ih]
          exact (balancedFrom_cons_iff rfl).symm
      · rw [scanBrackets_other (mt encode_inj.1 hbrz) (mt encode_inj.1 hbrnz), ih]
        refine (balancedFrom_cons_iff ?_).symm
        simp [countBrz, countBrnz, hbrz, hbrnz]

theorem matchBrackets_isSome_iff (source : List Byte) :
    (matchBrackets (tokens source)).isSome ↔ Balanced (decodeText source) := by
  rw [tokens_eq_encodeText, matchBrackets, scanBrackets_isSome_iff, List.length_nil, balancedFrom_zero_iff]

/-- Settles O4: LOAD answers as its scan does, and the scan from an empty stack succeeds exactly on balanced brackets. -/
theorem loadSucceedsExactlyOnBalancedBrackets : Obligations.LoadSucceedsExactlyOnBalancedBrackets := by
  refine fun source => ⟨fun hbalanced => ?_, fun hunbalanced => ?_⟩
  · obtain ⟨j, hj⟩ := Option.isSome_iff_exists.1 ((matchBrackets_isSome_iff source).2 hbalanced)
    exact ⟨j, load_loaded_iff.2 ⟨rfl, hj⟩⟩
  · rw [load_failed_iff, ← Option.not_isSome_iff_eq_none, matchBrackets_isSome_iff]
    exact hunbalanced

/-! ## The jump table of a loaded program -/

/-- All that a scan that succeeds can do at one token (30_encoding.md R64). -/
theorem scanBrackets_cons_some {t : Byte} {ts : List Byte} {k : Nat} {stack : List Nat} {j j' : JumpTable}
    (h : scanBrackets (t :: ts) k stack j = some j') :
    (t = encode .brz ∧ scanBrackets ts (k + 1) (k :: stack) j = some j') ∨
      (t = encode .brnz ∧ ∃ i rest, stack = i :: rest ∧ scanBrackets ts (k + 1) rest (recordPair j i k) = some j') ∨
      (t ≠ encode .brz ∧ t ≠ encode .brnz ∧ scanBrackets ts (k + 1) stack j = some j') := by
  by_cases hbrz : t = encode .brz
  · subst hbrz
    exact .inl ⟨rfl, by rwa [scanBrackets_brz] at h⟩
  · by_cases hbrnz : t = encode .brnz
    · subst hbrnz
      cases stack with
      | nil => simp at h
      | cons i rest => exact .inr (.inl ⟨rfl, i, rest, rfl, by rwa [scanBrackets_brnz] at h⟩)
    · exact .inr (.inr ⟨hbrz, hbrnz, by rwa [scanBrackets_other hbrz hbrnz] at h⟩)

/-- What entering a pair of indices adds to a jump table that has neither. -/
theorem jumpTarget_recordPair_eq_some {j : JumpTable} {i k : Nat} (hi : jumpTarget j i = none)
    (hk : jumpTarget j k = none) (hik : i ≠ k) {a b : Nat} :
    jumpTarget (recordPair j i k) a = some b ↔
      (a = i ∧ b = k) ∨ (a = k ∧ b = i) ∨ jumpTarget j a = some b := by
  rw [jumpTarget_recordPair]
  by_cases hak : a = k
  · subst hak
    simp [hk, hik.symm, eq_comm]
  · by_cases hai : a = i
    · subst hai
      simp [hi, hik, eq_comm]
    · simp [hak, hai]

theorem getElem?_concat_eq_some {done : List Byte} {t b : Byte} {k : Nat} :
    (done ++ [t])[k]? = some b ↔ done[k]? = some b ∨ k = done.length ∧ t = b := by
  rw [List.getElem?_append]
  split
  · next hlt => simp [Nat.ne_of_lt hlt]
  · next hge =>
    rw [List.getElem?_eq_none (Nat.le_of_not_lt hge), List.getElem?_singleton]
    split <;> simp <;> omega

theorem lt_length_of_getElem? {done : List Byte} {k : Nat} {b : Byte} (h : done[k]? = some b) : k < done.length :=
  (List.getElem?_eq_some_iff.1 h).1

/-- A bracket stands at index `k`. -/
def IsBracketAt (toks : List Byte) (k : Nat) : Prop :=
  toks[k]? = some (encode .brz) ∨ toks[k]? = some (encode .brnz)

theorem IsBracketAt.lt_length {toks : List Byte} {k : Nat} (h : IsBracketAt toks k) : k < toks.length :=
  h.elim lt_length_of_getElem? lt_length_of_getElem?

theorem isBracketAt_concat {done : List Byte} {t : Byte} {k : Nat} :
    IsBracketAt (done ++ [t]) k ↔
      IsBracketAt done k ∨ k = done.length ∧ (t = encode .brz ∨ t = encode .brnz) := by
  simp only [IsBracketAt, getElem?_concat_eq_some]
  tauto

/-- A loop begin at `i` with a later loop end at `k`. -/
def IsPairAt (toks : List Byte) (i k : Nat) : Prop :=
  toks[i]? = some (encode .brz) ∧ i < k ∧ toks[k]? = some (encode .brnz)

theorem IsPairAt.concat {done : List Byte} {i k : Nat} (h : IsPairAt done i k) (t : Byte) :
    IsPairAt (done ++ [t]) i k := by
  obtain ⟨hbegin, hlt, hend⟩ := h
  exact ⟨getElem?_concat_eq_some.2 (.inl hbegin), hlt, getElem?_concat_eq_some.2 (.inl hend)⟩

/-- The scan of 30_encoding.md R64 between two tokens: `done` has been read, `stack` holds the pending loop begins and `j` is
the table so far. The table is a strict matching of the brackets read, but for the pending ones; the stack holds the latest
on top, and no pair encloses a pending one, for it would have been closed before. -/
structure ScanInv (done : List Byte) (stack : List Nat) (j : JumpTable) : Prop where
  sorted : stack.Pairwise (· > ·)
  pending : ∀ a ∈ stack, done[a]? = some (encode .brz)
  defined : ∀ k, (∃ l, jumpTarget j k = some l) ↔ IsBracketAt done k ∧ k ∉ stack
  bidirectional : ∀ i k, jumpTarget j i = some k → jumpTarget j k = some i
  pairs : ∀ i k, jumpTarget j i = some k → IsPairAt done i k ∨ IsPairAt done k i
  nested : ∀ i k i' k', jumpTarget j i = some k → jumpTarget j i' = some k' → i < k → i' < k' → i < i' →
    k < i' ∨ k' < k
  notEnclosed : ∀ a ∈ stack, ∀ i k, jumpTarget j i = some k → i < k → k < a ∨ a < i

namespace ScanInv

variable {done : List Byte} {stack : List Nat} {j : JumpTable}

theorem nil : ScanInv [] [] [] where
  sorted := .nil
  pending := by simp
  defined := by simp [jumpTarget, IsBracketAt]
  bidirectional := by simp [jumpTarget]
  pairs := by simp [jumpTarget]
  nested := by simp [jumpTarget]
  notEnclosed := by simp

theorem pending_lt (h : ScanInv done stack j) {a : Nat} (ha : a ∈ stack) : a < done.length :=
  lt_length_of_getElem? (h.pending a ha)

/-- A pending loop begin has no partner yet. -/
theorem jumpTarget_pending (h : ScanInv done stack j) {a : Nat} (ha : a ∈ stack) : jumpTarget j a = none := by
  rw [Option.eq_none_iff_forall_ne_some]
  intro l hl
  exact ((h.defined a).1 ⟨l, hl⟩).2 ha

/-- The table speaks of the tokens read only. -/
theorem jumpTarget_length (h : ScanInv done stack j) : jumpTarget j done.length = none := by
  rw [Option.eq_none_iff_forall_ne_some]
  intro l hl
  exact Nat.lt_irrefl _ ((h.defined _).1 ⟨l, hl⟩).1.lt_length

theorem partner_lt (h : ScanInv done stack j) {i k : Nat} (hk : jumpTarget j i = some k) : k < done.length :=
  ((h.defined k).1 ⟨i, h.bidirectional i k hk⟩).1.lt_length

theorem pairs_concat (h : ScanInv done stack j) (t : Byte) {i k : Nat} (hk : jumpTarget j i = some k) :
    IsPairAt (done ++ [t]) i k ∨ IsPairAt (done ++ [t]) k i :=
  (h.pairs i k hk).imp (·.concat t) (·.concat t)

/-- A token that is no bracket changes nothing. -/
theorem other (h : ScanInv done stack j) {t : Byte} (hbrz : t ≠ encode .brz) (hbrnz : t ≠ encode .brnz) :
    ScanInv (done ++ [t]) stack j where
  sorted := h.sorted
  pending a ha := getElem?_concat_eq_some.2 (.inl (h.pending a ha))
  defined k := by rw [h.defined, isBracketAt_concat]; simp [hbrz, hbrnz]
  bidirectional := h.bidirectional
  pairs _ _ hk := h.pairs_concat t hk
  nested := h.nested
  notEnclosed := h.notEnclosed

/-- A loop begin is pending, and all pairs lie before it. -/
theorem push (h : ScanInv done stack j) : ScanInv (done ++ [encode .brz]) (done.length :: stack) j where
  sorted := List.pairwise_cons.2 ⟨fun _ ha => h.pending_lt ha, h.sorted⟩
  pending a ha := by
    rcases List.mem_cons.1 ha with rfl | ha
    · exact getElem?_concat_eq_some.2 (.inr ⟨rfl, rfl⟩)
    · exact getElem?_concat_eq_some.2 (.inl (h.pending a ha))
  defined k := by
    have hne : IsBracketAt done k → k ≠ done.length := fun hk => Nat.ne_of_lt hk.lt_length
    rw [h.defined, isBracketAt_concat, List.mem_cons]
    tauto
  bidirectional := h.bidirectional
  pairs _ _ hk := h.pairs_concat _ hk
  nested := h.nested
  notEnclosed a ha i k hk hlt := by
    rcases List.mem_cons.1 ha with rfl | ha
    · exact .inl (h.partner_lt hk)
    · exact h.notEnclosed a ha i k hk hlt

/-- The entries after a loop end: the new pair, both ways, and the old ones. -/
theorem close_entry_iff {i : Nat} {rest : List Nat} (h : ScanInv done (i :: rest) j) {a b : Nat} :
    jumpTarget (recordPair j i done.length) a = some b ↔
      (a = i ∧ b = done.length) ∨ (a = done.length ∧ b = i) ∨ jumpTarget j a = some b :=
  jumpTarget_recordPair_eq_some (h.jumpTarget_pending List.mem_cons_self) h.jumpTarget_length
    (Nat.ne_of_lt (h.pending_lt List.mem_cons_self))

/-- Of the new pair only one way leads forward. -/
theorem close_forward {i : Nat} {rest : List Nat} (h : ScanInv done (i :: rest) j) {a b : Nat}
    (hab : jumpTarget (recordPair j i done.length) a = some b) (hlt : a < b) :
    (a = i ∧ b = done.length) ∨ jumpTarget j a = some b := by
  have hi : i < done.length := h.pending_lt List.mem_cons_self
  exact (h.close_entry_iff.1 hab).imp_right (Or.resolve_left · (by omega))

theorem close_isPairAt {i : Nat} {rest : List Nat} (h : ScanInv done (i :: rest) j) :
    IsPairAt (done ++ [encode .brnz]) i done.length :=
  ⟨getElem?_concat_eq_some.2 (.inl (h.pending i List.mem_cons_self)), h.pending_lt List.mem_cons_self,
    getElem?_concat_eq_some.2 (.inr ⟨rfl, rfl⟩)⟩

/-- A loop end pairs with the pending loop begin on top. The pair nests strictly with every earlier one, since none of them
encloses that loop begin; and it encloses none of the others still pending, since they all stand before it. -/
theorem close {i : Nat} {rest : List Nat} (h : ScanInv done (i :: rest) j) :
    ScanInv (done ++ [encode .brnz]) rest (recordPair j i done.length) where
  sorted := h.sorted.of_cons
  pending a ha := getElem?_concat_eq_some.2 (.inl (h.pending a (List.mem_cons_of_mem i ha)))
  defined k := by
    have hold := h.defined k
    have hbegin : k = i → IsBracketAt done k ∧ k ∉ rest := by
      rintro rfl
      exact ⟨.inl (h.pending k List.mem_cons_self), fun hk => Nat.lt_irrefl k (List.rel_of_pairwise_cons h.sorted hk)⟩
    have hend : k = done.length → k ∉ rest := by
      rintro rfl hk
      exact Nat.lt_irrefl _ (h.pending_lt (List.mem_cons_of_mem i hk))
    simp only [h.close_entry_iff, exists_or, exists_and_left, exists_eq, and_true, isBracketAt_concat, or_true, hold,
      List.mem_cons]
    tauto
  bidirectional a b hab := by
    rw [h.close_entry_iff] at hab ⊢
    have hold := h.bidirectional a b
    tauto
  pairs a b hab := by
    rcases h.close_entry_iff.1 hab with ⟨rfl, rfl⟩ | ⟨rfl, rfl⟩ | hold
    · exact .inl h.close_isPairAt
    · exact .inr h.close_isPairAt
    · exact h.pairs_concat _ hold
  nested a b a' b' hab hab' hlt hlt' haa' := by
    rcases h.close_forward hab hlt with ⟨rfl, rfl⟩ | hold
    · rcases h.close_forward hab' hlt' with ⟨rfl, rfl⟩ | hold'
      · exact absurd haa' (Nat.lt_irrefl _)
      · exact .inr (h.partner_lt hold')
    · rcases h.close_forward hab' hlt' with ⟨rfl, rfl⟩ | hold'
      · exact .inl ((h.notEnclosed a' List.mem_cons_self a b hold hlt).resolve_right (Nat.lt_asymm haa'))
      · exact h.nested a b a' b' hold hold' hlt hlt' haa'
  notEnclosed c hc a b hab hlt := by
    rcases h.close_forward hab hlt with ⟨rfl, rfl⟩ | hold
    · exact .inr (List.rel_of_pairwise_cons h.sorted hc)
    · exact h.notEnclosed c (List.mem_cons_of_mem i hc) a b hold hlt

/-- With nothing pending the table is a strict matching of all that was read. -/
theorem strictMatching (h : ScanInv done [] j) : StrictMatching done (jumpTarget j) where
  defined k := by rw [h.defined]; simp [IsBracketAt]
  bidirectional := h.bidirectional
  pairs i k hk := (h.pairs i k hk).imp_right fun ⟨hbegin, hlt, hend⟩ => ⟨hend, hlt, hbegin⟩
  nested := h.nested

end ScanInv

/-- A scan that succeeds keeps the invariant to the end of the text, where nothing is pending. -/
theorem scanBrackets_inv {ts done : List Byte} {stack : List Nat} {j j' : JumpTable} (hinv : ScanInv done stack j)
    (h : scanBrackets ts done.length stack j = some j') : ScanInv (done ++ ts) [] j' := by
  induction ts generalizing done stack j with
  | nil =>
    rw [scanBrackets] at h
    split at h
    · next hstack =>
      cases h
      rw [List.append_nil, ← hstack]
      exact hinv
    · cases h
  | cons t ts ih =>
    have hlength : (done ++ [t]).length = done.length + 1 := List.length_append
    have hnext {stack' : List Nat} {table : JumpTable} (hinv' : ScanInv (done ++ [t]) stack' table)
        (h' : scanBrackets ts (done.length + 1) stack' table = some j') : ScanInv (done ++ t :: ts) [] j' := by
      rw [List.append_cons]
      exact ih hinv' (hlength ▸ h')
    rcases scanBrackets_cons_some h with ⟨rfl, h'⟩ | ⟨rfl, i, rest, rfl, h'⟩ | ⟨hbrz, hbrnz, h'⟩
    · exact hnext hinv.push h'
    · exact hnext hinv.close h'
    · exact hnext (hinv.other hbrz hbrnz) h'

/-- The table LOAD builds is a strict matching (30_encoding.md R66, R67) of the token array. -/
theorem matchBrackets_strictMatching {toks : List Byte} {j : JumpTable} (h : matchBrackets toks = some j) :
    StrictMatching toks (jumpTarget j) :=
  (scanBrackets_inv .nil h).strictMatching

theorem load_strictMatching {source : List Byte} {p : Program} (h : load source = .loaded p) :
    StrictMatching p.toks (jumpTarget p.jump) :=
  matchBrackets_strictMatching (load_loaded_iff.1 h).2

/-- Where a strict matching gives a loop begin a partner, that is a later loop end. -/
theorem isPairAt_of_strictMatching {toks : List Byte} {f : Nat → Option Nat} (h : StrictMatching toks f) {i j : Nat}
    (hbegin : toks[i]? = some (encode .brz)) (hj : f i = some j) : IsPairAt toks i j := by
  rcases h.pairs i j hj with hpair | ⟨hend, -, -⟩
  · exact hpair
  · rw [hbegin, Option.some.injEq, encode_inj] at hend
    cases hend

/-- Settles O5: two clauses of the strict matching that LOAD builds. -/
theorem jumpTableDefinedExactlyAtBrackets : Obligations.JumpTableDefinedExactlyAtBrackets := by
  intro source p hload
  have hmatching := load_strictMatching hload
  exact ⟨(load_loaded_iff.1 hload).1, hmatching.defined, hmatching.bidirectional⟩

/-- Settles O6: the other clauses of that matching, read at the loop begins. -/
theorem loadedBracketsNestStrictly : Obligations.LoadedBracketsNestStrictly := by
  intro source p hload
  have hmatching := load_strictMatching hload
  refine ⟨fun i hi => ?_, fun i j i' j' hi hi' hii' hj hj' => ?_⟩
  · obtain ⟨j, hj⟩ := (hmatching.defined i).2 (.inl hi)
    obtain ⟨-, hlt, hend⟩ := isPairAt_of_strictMatching hmatching hi hj
    exact ⟨j, hj, hlt, hend, hmatching.bidirectional i j hj⟩
  · obtain ⟨-, hlt, -⟩ := isPairAt_of_strictMatching hmatching hi hj
    obtain ⟨-, hlt', -⟩ := isPairAt_of_strictMatching hmatching hi' hj'
    exact hmatching.nested i j i' j' hj hj' hlt hlt' hii'

end Sys2Proof.Proofs.EncodingFamily
end

section
/-! PROOFS of the family 40_engine.md: where an instruction leaves pc, and that below the end every step goes on. -/

namespace Sys2Proof.Proofs.EngineFamily

open Sys2Proof.Machine

/-! ## Taken brackets and all other instructions -/

/-- The instruction is a bracket and the current cell makes it jump (43_control.md R141, R142). -/
def TakesBracket (i : Instr) (s : State) : Prop :=
  i = .brz ∧ s.cellAt s.page s.off = 0#16 ∨ i = .brnz ∧ s.cellAt s.page s.off ≠ 0#16

/-- What a taken bracket does, whichever of the two it is. -/
theorem exec_of_takesBracket {i : Instr} {s : State} (h : TakesBracket i s) : exec i s = takeBracket s := by
  rcases h with ⟨rfl, hzero⟩ | ⟨rfl, hnonzero⟩
  · exact if_pos (cellIsZero_iff.2 hzero)
  · exact if_neg (mt cellIsZero_iff.1 hnonzero)

/-- Every other instruction goes on, and ends its step with the advance of 40_engine.md R84. -/
theorem exec_advances_of_not_takesBracket {i : Instr} {s : State} (h : ¬ TakesBracket i s) :
    ∃ t, exec i s = .next t ∧ t.pc = s.pc + 1 := by
  cases i with
  | brz =>
    have hnonzero : s.cellAt s.page s.off ≠ 0#16 := fun hzero => h (.inl ⟨rfl, hzero⟩)
    exact ⟨s.advance, if_neg (mt cellIsZero_iff.1 hnonzero), rfl⟩
  | brnz =>
    have hzero : s.cellAt s.page s.off = 0#16 := by_contra fun hnonzero => h (.inr ⟨rfl, hnonzero⟩)
    exact ⟨s.advance, if_pos (cellIsZero_iff.2 hzero), rfl⟩
  | offInc | offDec | setOff | setPage | pageInc | pageDec | inc | dec | inp | rstore | ror | nand | rload | out =>
    exact ⟨_, rfl, rfl⟩

/-! ## The jump table of a state of the machine -/

theorem inv_strictMatching {s : State} (h : s.Inv) : StrictMatching s.prog (jumpTarget s.jump) :=
  EncodingFamily.matchBrackets_strictMatching h.table

/-- A bracket has an entry in `J`, so taking it never stops the machine (30_encoding.md R66). -/
theorem exists_jumpTarget_of_takesBracket {s : State} {i : Instr} (hinv : s.Inv) (hf : fetch s = some (encode i))
    (h : TakesBracket i s) : ∃ j, jumpTarget s.jump s.pc = some j := by
  apply ((inv_strictMatching hinv).defined s.pc).2
  rcases h with ⟨rfl, -⟩ | ⟨rfl, -⟩
  · exact .inl hf
  · exact .inr hf

/-- An entry of `J` is the index of a bracket, since the table is bidirectional; so it lies in the program. -/
theorem jumpTarget_lt_length {s : State} (hinv : s.Inv) {k j : Nat} (hj : jumpTarget s.jump k = some j) :
    j < s.prog.length := by
  have hmatching := inv_strictMatching hinv
  have hbracket : EncodingFamily.IsBracketAt s.prog j :=
    (hmatching.defined j).1 ⟨k, hmatching.bidirectional k j hj⟩
  exact hbracket.lt_length

theorem land_le_succ (l : BracketLanding) (j : Nat) : land l j ≤ j + 1 := by
  cases l with
  | afterMatch => exact Nat.le_refl (j + 1)
  | onMatch => exact Nat.le_succ j

/-- In a state of the machine the fetched instruction goes on and leaves pc inside the program or at its end: a taken bracket
has the entry it needs, and every other instruction passes one token. -/
theorem exec_next_of_inv {s : State} {b : Byte} {i : Instr} (hinv : s.Inv) (hf : fetch s = some b)
    (hd : decode b = some i) :
    ∃ t, exec i s = .next t ∧ t.pc ≤ s.prog.length ∧ (¬ TakesBracket i s → t.pc = s.pc + 1) ∧
      (TakesBracket i s → ∃ j, jumpTarget s.jump s.pc = some j ∧ t.pc = land s.landing j) := by
  by_cases htakes : TakesBracket i s
  · rw [decode_eq_some.1 hd] at hf
    obtain ⟨j, hj⟩ := exists_jumpTarget_of_takesBracket hinv hf htakes
    have htarget : land s.landing j ≤ s.prog.length := (land_le_succ _ j).trans (jumpTarget_lt_length hinv hj)
    have hexec : exec i s = .next (s.jumpTo (land s.landing j)) := by
      rw [exec_of_takesBracket htakes, takeBracket, hj]
    exact ⟨_, hexec, htarget, absurd htakes, fun _ => ⟨j, hj, rfl⟩⟩
  · obtain ⟨t, hexec, hpc⟩ := exec_advances_of_not_takesBracket htakes
    exact ⟨t, hexec, hpc ▸ fetch_some_lt hf, fun _ => hpc, fun h => absurd h htakes⟩

/-! ## Every step below the end has one successor -/

/-- Below the end a token is fetched, and the invariant says that it decodes. -/
theorem exists_instr_of_lt {s : State} (hinv : s.Inv) (hlt : s.pc < s.prog.length) :
    ∃ b i, fetch s = some b ∧ decode b = some i := by
  obtain ⟨i, hi⟩ := isToken_iff.1 (hinv.toks s.prog[s.pc] (List.getElem_mem hlt))
  exact ⟨_, i, List.getElem?_eq_getElem hlt, decode_eq_some.2 hi⟩

/-- Settles O14: below the end a token is fetched and decodes, and its instruction goes on (`exec_next_of_inv`); there is one
successor since the step is a function. -/
theorem stepIsTotalBelowTheEnd : Obligations.StepIsTotalBelowTheEnd := by
  intro s hinv hlt
  obtain ⟨b, i, hf, hd⟩ := exists_instr_of_lt hinv hlt
  obtain ⟨t, hexec, -⟩ := exec_next_of_inv hinv hf hd
  have hstep : step s = .next t := (step_exec hf hd).trans hexec
  refine ⟨t, hstep, fun u hu => ?_⟩
  cases hstep.symm.trans hu
  rfl

/-- Settles O39: the clauses without a jump are each a way not to take a bracket, and the last one reads `land` at each
landing. -/
theorem advanceOrBracketTarget : Obligations.AdvanceOrBracketTarget := by
  intro s b i hinv hf hd
  obtain ⟨t, hexec, hle, hadvance, htaken⟩ := exec_next_of_inv hinv hf hd
  refine ⟨t, hexec, hle, fun hbrz hbrnz => hadvance ?_, fun hi hcell => hadvance ?_, fun hi hcell => hadvance ?_,
    fun htakes => ?_⟩
  · rintro (⟨hi, -⟩ | ⟨hi, -⟩)
    · exact hbrz hi
    · exact hbrnz hi
  · rintro (⟨-, hzero⟩ | ⟨hi', -⟩)
    · exact hcell hzero
    · cases hi.symm.trans hi'
  · rintro (⟨hi', -⟩ | ⟨-, hnonzero⟩)
    · cases hi.symm.trans hi'
    · exact hnonzero hcell
  · obtain ⟨j, hj, hpc⟩ := htaken htakes
    exact ⟨j, hj, fun hlanding => by rw [hpc, hlanding, land], fun hlanding => by rw [hpc, hlanding, land]⟩

end Sys2Proof.Proofs.EngineFamily
end

section
/-! PROOFS of the family 41_pointer.md: the six instructions that move the data pointer. -/

namespace Sys2Proof.Proofs.PointerFamily

open Sys2Proof.Machine

/-! ## Word arithmetic modulo 65536 -/

/-- The word operation `+ 1` is the spec's sum of naturals, reduced to a word. -/
theorem wordInc_eq_ofNat (w : Word) : wordInc w = BitVec.ofNat 16 ((w.toNat + 1) % 65536) := by
  apply BitVec.eq_of_toNat_eq
  simp [wordInc, BitVec.toNat_add]

/-- The word operation `- 1` is the spec's difference of integers, reduced to a word: at 0 it gives 65535. -/
theorem wordDec_eq_ofInt (w : Word) : wordDec w = BitVec.ofInt 16 (((w.toNat : Int) - 1) % 65536) := by
  apply BitVec.eq_of_toNat_eq
  have hw := w.isLt
  rw [wordDec, BitVec.toNat_sub, BitVec.toNat_ofInt]
  simp only [BitVec.toNat_ofNat]
  omega

/-- A cell's value is already in 0..65535, so reducing it changes nothing (41_pointer.md R104, R105). -/
theorem eq_ofNat_toNat_mod (w : Word) : w = BitVec.ofNat 16 (w.toNat % 65536) := by
  rw [Nat.mod_eq_of_lt w.isLt, BitVec.ofNat_toNat, BitVec.setWidth_eq]

/-! ## The whole next state of a pointer move -/

/-- What an instruction that writes off and advances leaves, off's new value read as `w`: every other field as it was, page
too. -/
theorem next_of_setOff {i : Instr} {s : State} {v w : Word} (h : exec i s = .next (s.setOff v).advance) (hv : v = w) :
    exec i s = .next { s with off := w, pc := s.pc + 1 } := by
  subst hv; exact h

/-- What an instruction that writes page and advances leaves, page's new value read as `w`: every other field as it was, off
too. -/
theorem next_of_setPage {i : Instr} {s : State} {v w : Word} (h : exec i s = .next (s.setPage v).advance) (hv : v = w) :
    exec i s = .next { s with page := w, pc := s.pc + 1 } := by
  subst hv; exact h

/-! ## The meanings, in the words of the state's operations -/

theorem exec_offInc (s : State) : exec .offInc s = .next (s.setOff (wordInc s.off)).advance := rfl
theorem exec_offDec (s : State) : exec .offDec s = .next (s.setOff (wordDec s.off)).advance := rfl
theorem exec_setOff (s : State) : exec .setOff s = .next (s.setOff (s.cellAt s.page s.off)).advance := rfl
theorem exec_setPage (s : State) : exec .setPage s = .next (s.setPage (s.cellAt s.page s.off)).advance := rfl
theorem exec_pageInc (s : State) : exec .pageInc s = .next (s.setPage (wordInc s.page)).advance := rfl
theorem exec_pageDec (s : State) : exec .pageDec s = .next (s.setPage (wordDec s.page)).advance := rfl

/-! ## The obligations -/

/-- Settles O21: OFFINC writes off, and the word it writes is the sum modulo 65536. -/
theorem offsetIncrement : Obligations.OffsetIncrement :=
  ⟨decode_encode .offInc, fun s => next_of_setOff (exec_offInc s) (wordInc_eq_ofNat s.off)⟩

/-- Settles O22: OFFDEC writes off, and the word it writes is the integer difference modulo 65536. -/
theorem offsetDecrement : Obligations.OffsetDecrement :=
  ⟨decode_encode .offDec, fun s => next_of_setOff (exec_offDec s) (wordDec_eq_ofInt s.off)⟩

/-- Settles O23: SETOFF writes off, with the cell at the pointer it finds. -/
theorem setOffsetFromCell : Obligations.SetOffsetFromCell :=
  ⟨decode_encode .setOff, fun s => next_of_setOff (exec_setOff s) (eq_ofNat_toNat_mod _)⟩

/-- Settles O24: SETPAGE writes page, with the cell at the pointer it finds. -/
theorem setPageFromCell : Obligations.SetPageFromCell :=
  ⟨decode_encode .setPage, fun s => next_of_setPage (exec_setPage s) (eq_ofNat_toNat_mod _)⟩

/-- Settles O25: PAGEINC writes page, and the word it writes is the sum modulo 65536. -/
theorem pageIncrement : Obligations.PageIncrement :=
  ⟨decode_encode .pageInc, fun s => next_of_setPage (exec_pageInc s) (wordInc_eq_ofNat s.page)⟩

/-- Settles O26: PAGEDEC writes page, and the word it writes is the integer difference modulo 65536. -/
theorem pageDecrement : Obligations.PageDecrement :=
  ⟨decode_encode .pageDec, fun s => next_of_setPage (exec_pageDec s) (wordDec_eq_ofInt s.page)⟩

end Sys2Proof.Proofs.PointerFamily
end

section
/-! PROOFS of the family 42_alu.md: the four instructions that compute the current cell, alone and repeated. -/

namespace Sys2Proof.Proofs.AluFamily

open Sys2Proof.Machine

/-! ## The meanings, in the words of the state's operations -/

theorem exec_inc (s : State) : exec .inc s = .next (s.setCell (wordInc (s.cellAt s.page s.off))).advance := rfl
theorem exec_dec (s : State) : exec .dec s = .next (s.setCell (wordDec (s.cellAt s.page s.off))).advance := rfl
theorem exec_ror (s : State) : exec .ror s = .next (s.setCell (rotateRight1 (s.cellAt s.page s.off))).advance := rfl
theorem exec_nand (s : State) : exec .nand s = .next (s.setCell (wordNand (s.cellAt s.page s.off) s.r)).advance := rfl

/-! ## What an instruction that writes the current cell leaves -/

/-- `next_of_setCell` with the current cell and all other cells apart. -/
theorem next_of_setCell_split {i : Instr} {s : State} {v : Word} (h : exec i s = .next (s.setCell v).advance) :
    ∃ t, exec i s = .next t ∧ t = { s with pc := s.pc + 1, m := t.m } ∧
      (∀ p o, ¬ (p = s.page ∧ o = s.off) → t.cellAt p o = s.cellAt p o) ∧ t.cellAt s.page s.off = v := by
  obtain ⟨t, hexec, hframe, hcells⟩ := next_of_setCell h
  exact ⟨t, hexec, hframe, fun p o hother => (hcells p o).trans (if_neg hother),
    (hcells s.page s.off).trans (if_pos ⟨rfl, rfl⟩)⟩

/-- A case split on the current cell that gives each cell what it held. -/
theorem ite_cellAt_self (s : State) (p o : Word) :
    (if p = s.page ∧ o = s.off then s.cellAt s.page s.off else s.cellAt p o) = s.cellAt p o :=
  ite_eq_right_iff.2 fun ⟨hp, ho⟩ => by rw [hp, ho]

/-- An instruction that replaces the current cell `c` by `f c`, executed `n` times one after another: it completes, and
the current cell holds `f` applied `n` times. The data pointer does not move, so each execution meets the same cell. -/
theorem execSeq_replicate_of_setCell {i : Instr} {f : Word → Word}
    (hexec : ∀ s, exec i s = .next (s.setCell (f (s.cellAt s.page s.off))).advance) (n : Nat) (s : State) :
    ∃ t, execSeq (List.replicate n i) s = .next t ∧ t = { s with pc := s.pc + n, m := t.m } ∧
      ∀ p o, t.cellAt p o = if p = s.page ∧ o = s.off then f^[n] (s.cellAt s.page s.off) else s.cellAt p o := by
  induction n generalizing s with
  | zero => exact ⟨s, execSeq_nil s, rfl, fun p o => (ite_cellAt_self s p o).symm⟩
  | succ n ih =>
    obtain ⟨u, hu, hframe, hcells⟩ := next_of_setCell (hexec s)
    obtain ⟨t, ht, hframe', hcells'⟩ := ih u
    have hpage : u.page = s.page := by rw [hframe]
    have hoff : u.off = s.off := by rw [hframe]
    have hcur : u.cellAt s.page s.off = f (s.cellAt s.page s.off) := (hcells s.page s.off).trans (if_pos ⟨rfl, rfl⟩)
    refine ⟨t, (execSeq_cons hu).trans ht, ?_, fun p o => ?_⟩
    · rw [hframe', hframe, Nat.add_right_comm, Nat.add_assoc]
    · rw [hcells', hpage, hoff, hcur, hcells, Function.iterate_succ_apply]
      split
      · rfl
      · rfl

/-- Where `f` applied `n` times gives back every word, `n` executions leave every cell as it was. -/
theorem execSeq_replicate_restores {i : Instr} {f : Word → Word}
    (hexec : ∀ s, exec i s = .next (s.setCell (f (s.cellAt s.page s.off))).advance) {n : Nat}
    (hperiod : ∀ c, f^[n] c = c) (s : State) :
    ∃ t, execSeq (List.replicate n i) s = .next t ∧ ∀ p o, t.cellAt p o = s.cellAt p o := by
  obtain ⟨t, ht, -, hcells⟩ := execSeq_replicate_of_setCell hexec n s
  exact ⟨t, ht, fun p o => by rw [hcells, hperiod, ite_cellAt_self]⟩

/-! ## Repeated increment -/

theorem iterate_wordInc (n : Nat) (c : Word) : wordInc^[n] c = BitVec.ofNat 16 ((c.toNat + n) % 65536) := by
  induction n with
  | zero => exact PointerFamily.eq_ofNat_toNat_mod c
  | succ n ih =>
    rw [Function.iterate_succ_apply', ih, PointerFamily.wordInc_eq_ofNat]
    congr 1
    simp only [BitVec.toNat_ofNat]
    omega

/-- The increments run through all words and return (42_alu.md R120). -/
theorem iterate_wordInc_65536 (c : Word) : wordInc^[65536] c = c := by
  rw [iterate_wordInc, Nat.add_mod_right]
  exact (PointerFamily.eq_ofNat_toNat_mod c).symm

/-! ## Rotation -/

/-- The rotation in the words of 42_alu.md R122; `(c AND 1) << 15` fits in 16 bits, so no bit is lost. -/
theorem toNat_rotateRight1 (c : Word) :
    (rotateRight1 c).toNat = (c.toNat >>> 1) ||| ((c.toNat &&& 1) <<< 15) := by
  have hfits : (c.toNat &&& 1) <<< 15 < 2 ^ 16 := by
    rw [Nat.and_one_is_mod, Nat.shiftLeft_eq]
    omega
  simp only [rotateRight1, BitVec.toNat_or, BitVec.toNat_ushiftRight, BitVec.toNat_shiftLeft, BitVec.toNat_and,
    BitVec.toNat_ofNat]
  rw [show 1 % 2 ^ 16 = 1 from rfl, Nat.mod_eq_of_lt hfits]

/-- The rotation bit by bit (42_alu.md R122), the top bit and the others in one: indices are taken modulo 16. -/
theorem getLsbD_rotateRight1 (c : Word) {i : Nat} (hi : i < 16) :
    (rotateRight1 c).getLsbD i = c.getLsbD ((i + 1) % 16) := by
  rw [rotateRight1, BitVec.getLsbD_or, BitVec.getLsbD_ushiftRight, BitVec.getLsbD_shiftLeft, BitVec.getLsbD_and]
  rcases Nat.lt_or_ge i 15 with hlow | htop
  · rw [Nat.mod_eq_of_lt (by omega), Nat.add_comm]
    simp [hlow]
  · obtain rfl : i = 15 := by omega
    simp

theorem getLsbD_iterate_rotateRight1 (n : Nat) (c : Word) {i : Nat} (hi : i < 16) :
    (rotateRight1^[n] c).getLsbD i = c.getLsbD ((i + n) % 16) := by
  induction n generalizing c with
  | zero => rw [Function.iterate_zero_apply, Nat.add_zero, Nat.mod_eq_of_lt hi]
  | succ n ih =>
    rw [Function.iterate_succ_apply, ih, getLsbD_rotateRight1 c (Nat.mod_lt _ (by decide)), Nat.mod_add_mod,
      Nat.add_assoc]

/-- Sixteen rotations bring every bit back to its place. -/
theorem iterate_rotateRight1_16 (c : Word) : rotateRight1^[16] c = c := by
  apply BitVec.eq_of_getLsbD_eq
  intro i hi
  rw [getLsbD_iterate_rotateRight1 16 c hi, Nat.add_mod_right, Nat.mod_eq_of_lt hi]

/-! ## NAND -/

/-- The complement in the words of 42_alu.md R123. -/
theorem toNat_wordNand (a b : Word) : (wordNand a b).toNat = 65535 - (a.toNat &&& b.toNat) := by
  rw [wordNand, BitVec.toNat_not, BitVec.toNat_and]

theorem getLsbD_wordNand (a b : Word) {i : Nat} (hi : i < 16) :
    (wordNand a b).getLsbD i = !(a.getLsbD i && b.getLsbD i) := by
  rw [wordNand, BitVec.getLsbD_not, BitVec.getLsbD_and, decide_eq_true hi, Bool.true_and]

/-! ## The obligations -/

/-- Settles O29: INC writes the sum modulo 65536; `n` of them by the induction of `execSeq_replicate_of_setCell`, and 65536
increments are one full round of the words. -/
theorem incrementCell : Obligations.IncrementCell := by
  refine ⟨decode_encode .inc, fun s => ?_, fun n s => ?_, execSeq_replicate_restores exec_inc iterate_wordInc_65536⟩
  · rw [← PointerFamily.wordInc_eq_ofNat]
    exact next_of_setCell (exec_inc s)
  · rw [← iterate_wordInc]
    exact execSeq_replicate_of_setCell exec_inc n s

/-- Settles O32: ROR writes the rotated cell, read as a number and bit by bit; sixteen of them are a full turn. -/
theorem rotateCellRight : Obligations.RotateCellRight := by
  refine ⟨decode_encode .ror, fun s => ?_, execSeq_replicate_restores exec_ror iterate_rotateRight1_16⟩
  obtain ⟨t, hexec, hframe, hothers, hcell⟩ := next_of_setCell_split (exec_ror s)
  refine ⟨t, hexec, hframe, hothers, ?_, ?_, fun i hi => ?_⟩ <;> rw [hcell]
  · exact toNat_rotateRight1 _
  · exact getLsbD_rotateRight1 _ (by decide)
  · rw [getLsbD_rotateRight1 _ (by omega), Nat.mod_eq_of_lt (by omega)]

/-- Settles O33: NAND writes the complement of the AND, read as a number and bit by bit; `R` is among the fields its next
state keeps. -/
theorem nandCellWithRegister : Obligations.NandCellWithRegister := by
  refine ⟨decode_encode .nand, fun s => ?_⟩
  obtain ⟨t, hexec, hframe, hothers, hcell⟩ := next_of_setCell_split (exec_nand s)
  refine ⟨t, hexec, hframe, hothers, ?_, fun i hi => ?_⟩ <;> rw [hcell]
  · exact toNat_wordNand _ _
  · exact getLsbD_wordNand _ _ hi

/-- Settles O30: DEC writes the integer difference modulo 65536, so 0 becomes 65535. -/
theorem decrementCell : Obligations.DecrementCell := by
  refine ⟨decode_encode .dec, fun s => ?_⟩
  rw [← PointerFamily.wordDec_eq_ofInt]
  exact next_of_setCell (exec_dec s)

end Sys2Proof.Proofs.AluFamily
end

section
/-! PROOFS of the family 43_control.md: the two brackets, taken and passed. -/

namespace Sys2Proof.Proofs.ControlFamily

open Sys2Proof.Machine

/-! ## The whole next state of a bracket -/

/-- What a taken bracket with the entry `j` leaves, its landing read as `k` (43_control.md R140): every other field as it
was. -/
theorem next_of_takesBracket {i : Instr} {s : State} {j k : Nat} (h : EngineFamily.TakesBracket i s)
    (hj : jumpTarget s.jump s.pc = some j) (hk : land s.landing j = k) : exec i s = .next { s with pc := k } := by
  subst hk
  rw [EngineFamily.exec_of_takesBracket h, takeBracket, hj]
  rfl

theorem exec_brz_of_cell_ne_zero {s : State} (h : s.cellAt s.page s.off ≠ 0#16) : exec .brz s = .next s.advance :=
  if_neg (mt cellIsZero_iff.1 h)

theorem exec_brnz_of_cell_eq_zero {s : State} (h : s.cellAt s.page s.off = 0#16) : exec .brnz s = .next s.advance :=
  if_pos (cellIsZero_iff.2 h)

/-! ## The obligations -/

/-- Settles O37: BRZ is taken at a zero cell, and `land` gives the target at each landing; at any other cell it only
advances. -/
theorem loopBeginJumpsOnZero : Obligations.LoopBeginJumpsOnZero := by
  refine ⟨decode_encode .brz, fun s j hzero hj => ?_, fun s hnonzero => exec_brz_of_cell_ne_zero hnonzero⟩
  apply next_of_takesBracket (.inl ⟨rfl, hzero⟩) hj
  cases s.landing with
  | afterMatch => rfl
  | onMatch => rfl

/-- Settles O38: BRNZ is taken at a nonzero cell, and `land` gives the target at each landing; at a zero cell it only
advances. -/
theorem loopEndJumpsOnNonzero : Obligations.LoopEndJumpsOnNonzero := by
  refine ⟨decode_encode .brnz, fun s j hnonzero hj => ?_, fun s hzero => exec_brnz_of_cell_eq_zero hzero⟩
  apply next_of_takesBracket (.inr ⟨rfl, hnonzero⟩) hj
  cases s.landing with
  | afterMatch => rfl
  | onMatch => rfl

end Sys2Proof.Proofs.ControlFamily
end

section
/-! PROOFS of the family 44_register_io.md: register load and store, and the two instructions that use the tapes. -/

namespace Sys2Proof.Proofs.RegisterIoFamily

open Sys2Proof.Machine

/-! ## The meanings, in the words of the state's operations -/

theorem exec_rload (s : State) : exec .rload s = .next (s.setR (s.cellAt s.page s.off)).advance := rfl
theorem exec_rstore (s : State) : exec .rstore s = .next (s.setCell s.r).advance := rfl
theorem exec_out (s : State) : exec .out s = .next (s.tapeOut s.r (s.cellAt s.page s.off)).advance := rfl
theorem exec_inp (s : State) : exec .inp s = .next (s.setCell (tapeRead s.ro s.r)).advance := rfl

/-! ## What a write of R and a write of the tape leave -/

/-- What an instruction that writes R and advances leaves: every other field as it was. -/
theorem next_of_setR {i : Instr} {s : State} {v : Word} (h : exec i s = .next (s.setR v).advance) :
    exec i s = .next { s with r := v, pc := s.pc + 1 } := h

/-- `slotWritten_slotWrite` as a case split on the slot: the written slot is marked, each other one keeps its mark. -/
theorem slotWritten_slotWrite_ite (wo : WriteTape) (a v b : Word) :
    slotWritten (slotWrite wo a v) b = if b = a then true else slotWritten wo b := by
  rw [slotWritten_slotWrite]
  by_cases h : b = a
  · rw [if_pos h, decide_eq_true h, Bool.true_or]
  · rw [if_neg h, decide_eq_false h, Bool.false_or]

/-- What an instruction that writes slot `a` of WO and advances leaves (20_memory.md R48): the slot's value and mark, the
log's new last entry, every other slot and every other field as it was. -/
theorem next_of_tapeOut {i : Instr} {s : State} {a v : Word} (h : exec i s = .next (s.tapeOut a v).advance) :
    ∃ t, exec i s = .next t ∧ t = { s with pc := s.pc + 1, wo := t.wo, woLog := s.woLog ++ [(a, v)] } ∧
      (∀ b, slotValue t.wo b = if b = a then v else slotValue s.wo b) ∧
      (∀ b, slotWritten t.wo b = if b = a then true else slotWritten s.wo b) :=
  ⟨_, h, rfl, slotValue_slotWrite s.wo a v, slotWritten_slotWrite_ite s.wo a v⟩

/-! ## The obligations -/

/-- Settles O41: RLOAD writes R, with the current cell. -/
theorem loadRegisterFromCell : Obligations.LoadRegisterFromCell :=
  ⟨decode_encode .rload, fun s => next_of_setR (exec_rload s)⟩

/-- Settles O42: RSTORE writes the current cell, with R. -/
theorem storeRegisterToCell : Obligations.StoreRegisterToCell :=
  ⟨decode_encode .rstore, fun s => next_of_setCell (exec_rstore s)⟩

/-- Settles O43: OUT writes slot R of the tape, with the current cell. -/
theorem outputCellToTape : Obligations.OutputCellToTape :=
  ⟨decode_encode .out, fun s => next_of_tapeOut (exec_out s)⟩

/-- Settles O44: IN writes the current cell with TapeRead(R), which is the spec's case split at the tape's length (O47); RO
is among the fields its next state keeps. -/
theorem inputCellFromTape : Obligations.InputCellFromTape := by
  refine ⟨decode_encode .inp, fun s => ?_⟩
  rw [← MemoryFamily.readTapeBeyondItsEndIsZero s.ro s.r]
  exact next_of_setCell (exec_inp s)

end Sys2Proof.Proofs.RegisterIoFamily
end

section
/-! PROOFS: the decoder and the encoder, on bytes, on table words and on whole texts. -/

namespace Sys2Proof.Proofs.Codec

open Sys2Proof.Machine

/-- The eight bits of a byte, taken as a table word, are that byte. -/
theorem ofNat_toNat_mod (b : Byte) : BitVec.ofNat 8 (b.toNat % 2 ^ 8) = b := by
  rw [Nat.mod_eq_of_lt b.isLt, BitVec.ofNat_toNat, BitVec.setWidth_eq]

/-- On words of eight bits the two decoders are one. -/
theorem decodeTableWord_toNat (b : Byte) : decodeTableWord 8 b.toNat = decode b := by
  rw [decodeTableWord, ofNat_toNat_mod]

theorem encodeText_injective : Function.Injective encodeText :=
  List.map_injective_iff.2 fun _ _ h => encode_inj.1 h

theorem decodeText_encodeText (is : List Instr) : decodeText (encodeText is) = is := by
  have hid : decode ∘ encode = some := funext decode_encode
  rw [decodeText, encodeText, List.filterMap_map, hid, List.filterMap_some]

/-- Settles O2: the table decoder is the byte decoder; and since the tokens of a text are the encoding of what it decodes to
(`tokens_eq_encodeText`), the second clause says that encoding is injective. -/
theorem decodeAndEncodeAgree : Obligations.DecodeAndEncodeAgree := by
  refine ⟨fun i _ => ⟨decode_encode i, ?_⟩, fun source is => ?_, decodeText_encodeText⟩
  · rw [decodeTableWord_toNat, decode_encode]
  · rw [EncodingFamily.tokens_eq_encodeText, encodeText_injective.eq_iff]

/-- Settles O1: each byte of the map is the encoding of its row, and the other four are read off the map. -/
theorem opcodeMapWordsDecode : Obligations.OpcodeMapWordsDecode :=
  ⟨decode_encode .offInc, decode_encode .offDec, decode_encode .inc, decode_encode .dec, decode_encode .brz,
    decode_encode .brnz, decode_encode .out, decode_encode .inp, decode_encode .setOff, decode_encode .rload,
    decode_encode .rstore, decode_encode .ror, decode_encode .nand, decode_encode .setPage, decode_encode .pageInc,
    decode_encode .pageDec, rfl, rfl, rfl, rfl⟩

end Sys2Proof.Proofs.Codec
end

section
/-! PROOFS: a program has one strict matching of its brackets (30_encoding.md section 2). -/

namespace Sys2Proof.Proofs.Matching

open Sys2Proof.Machine

section

variable {toks : List Byte} {f g : Nat → Option Nat}

/-- The partner of a loop end is an earlier loop begin. -/
theorem isPairAt_of_end (h : StrictMatching toks f) {k i : Nat} (hend : toks[k]? = some (encode .brnz))
    (hi : f k = some i) : EncodingFamily.IsPairAt toks i k := by
  rcases h.pairs k i hi with ⟨hbegin, -, -⟩ | ⟨-, hlt, hbegin⟩
  · rw [hend, Option.some.injEq, encode_inj] at hbegin
    cases hbegin
  · exact ⟨hbegin, hlt, hend⟩

/-- Where two strict matchings agree on all loop ends before `k`, the first cannot pair the loop end at `k` with an earlier
loop begin than the second: it would have to close the second's loop begin `i'` in between, at a loop end where both agree,
and then the second matching gives `i'` two partners. -/
theorem partner_not_lt (hf : StrictMatching toks f) (hg : StrictMatching toks g) {k i i' : Nat}
    (hbelow : ∀ m < k, toks[m]? = some (encode .brnz) → f m = g m) (hend : toks[k]? = some (encode .brnz))
    (hi : f k = some i) (hi' : g k = some i') : ¬ i < i' := by
  intro hlt
  obtain ⟨-, hik, -⟩ := isPairAt_of_end hf hend hi
  obtain ⟨hbegin', hi'k, -⟩ := isPairAt_of_end hg hend hi'
  obtain ⟨k', hk'⟩ := (hf.defined i').2 (.inl hbegin')
  obtain ⟨-, hi'k', hend'⟩ := EncodingFamily.isPairAt_of_strictMatching hf hbegin' hk'
  have hk'k : k' < k :=
    (hf.nested i k i' k' (hf.bidirectional k i hi) hk' hik hi'k' hlt).resolve_left (Nat.lt_asymm hi'k)
  have hgk' : g k' = some i' := (hbelow k' hk'k hend').symm.trans (hf.bidirectional i' k' hk')
  have hpartners : some k' = some k := (hg.bidirectional k' i' hgk').symm.trans (hg.bidirectional k i' hi')
  exact Nat.ne_of_lt hk'k (Option.some.inj hpartners)

/-- By induction along the program: at each loop end neither partner is earlier than the other. -/
theorem eq_at_end (hf : StrictMatching toks f) (hg : StrictMatching toks g) (k : Nat)
    (hend : toks[k]? = some (encode .brnz)) : f k = g k := by
  induction k using Nat.strong_induction_on with
  | _ k ih =>
    obtain ⟨i, hi⟩ := (hf.defined k).2 (.inr hend)
    obtain ⟨i', hi'⟩ := (hg.defined k).2 (.inr hend)
    have hle : ¬ i < i' := partner_not_lt hf hg ih hend hi hi'
    have hge : ¬ i' < i := partner_not_lt hg hf (fun m hm hm' => (ih m hm hm').symm) hend hi' hi
    obtain rfl : i = i' := by omega
    rw [hi, hi']

/-- Every pair of one strict matching is a pair of the other, since each has a loop end. -/
theorem eq_some_of_eq_some (hf : StrictMatching toks f) (hg : StrictMatching toks g) {k j : Nat} (h : f k = some j) :
    g k = some j := by
  rcases hf.pairs k j h with ⟨-, -, hend⟩ | ⟨hend, -, -⟩
  · exact hg.bidirectional j k ((eq_at_end hf hg j hend).symm.trans (hf.bidirectional k j h))
  · exact (eq_at_end hf hg k hend).symm.trans h

theorem strictMatching_unique (hf : StrictMatching toks f) (hg : StrictMatching toks g) (k : Nat) : f k = g k :=
  Option.ext fun _ => ⟨eq_some_of_eq_some hf hg, eq_some_of_eq_some hg hf⟩

end

/-- Settles O7: LOAD's table is a strict matching (`load_strictMatching`), and there is only one. -/
theorem strictMatchingIsUnique : Obligations.StrictMatchingIsUnique :=
  fun _ _ _ hload hf => strictMatching_unique hf (EncodingFamily.load_strictMatching hload)

end Sys2Proof.Proofs.Matching
end

section
/-! PROOFS: the invariant, at construction, over a step and over every run; and a word placed for the next fetch. -/

namespace Sys2Proof.Proofs.Invariant

open Sys2Proof.Machine

/-! ## The states a host can meet -/

theorem construct_inv {source : List Byte} {p : Program} (h : load source = .loaded p) (l : BracketLanding)
    (tape : List Word) : (construct l p tape).Inv := by
  obtain ⟨hprog, htable⟩ := construct_of_load h l tape
  exact {
    pc_le := Nat.zero_le _
    toks := fun b hb => (mem_tokens.1 (hprog ▸ hb)).2
    table := htable
    mem := reset_mem_wf
    slots := rfl }

/-- Settles O12. -/
theorem constructMeetsTheInvariant : Obligations.ConstructMeetsTheInvariant :=
  fun l _ _ tape hload => construct_inv hload l tape

/-- Settles O10: the empty text has no brackets to match, and the empty program ends where it begins. -/
theorem resetIsConstructionOfTheEmptyProgram : Obligations.ResetIsConstructionOfTheEmptyProgram :=
  have hhalted : State.reset.status = .halted := status_halted_iff.2 rfl
  ⟨⟨⟨[], []⟩, load_loaded_iff.2 ⟨rfl, rfl⟩, rfl⟩, hhalted, step_halted hhalted⟩

/-- Settles O11: the state after reset is a constructed one (O10). -/
theorem resetMeetsTheInvariant : Obligations.ResetMeetsTheInvariant := by
  obtain ⟨⟨p, hload, hreset⟩, -, -⟩ := resetIsConstructionOfTheEmptyProgram
  rw [Obligations.ResetMeetsTheInvariant, ← hreset]
  exact construct_inv hload _ _

/-- An instruction writes memory by MemWrite only. -/
theorem exec_mem_wf {i : Instr} {s t : State} (h : exec i s = .next t) (hm : Memory.wf s.m) : Memory.wf t.m := by
  cases exec_shape h with
  | cell v => exact memWrite_wf hm s.page s.off v
  | off | page | register | tape | passed | taken => exact hm

/-- An instruction writes a slot of `WO` and an entry of the log together, or neither. -/
theorem exec_slots {i : Instr} {s t : State} (h : exec i s = .next t) (hs : s.wo = slotsOfLog s.woLog) :
    t.wo = slotsOfLog t.woLog := by
  cases exec_shape h with
  | tape =>
    rw [State.advance_wo, State.tapeOut_wo, State.advance_woLog, State.tapeOut_woLog, slotsOfLog_append, ← hs]
  | off | page | register | cell | passed | taken => exact hs

theorem step_inv {s t : State} (hinv : s.Inv) (h : step s = .next t) : t.Inv := by
  rcases step_next h with ⟨-, rfl⟩ | ⟨b, i, hf, hd, -, hexec⟩
  · exact hinv
  · obtain ⟨hprog, hjump, -, -⟩ := exec_inputs hexec
    obtain ⟨t', hexec', hpc, -⟩ := EngineFamily.exec_next_of_inv hinv hf hd
    cases hexec.symm.trans hexec'
    exact {
      pc_le := hprog ▸ hpc
      toks := hprog ▸ hinv.toks
      table := by rw [hprog, hjump]; exact hinv.table
      mem := exec_mem_wf hexec hinv.mem
      slots := exec_slots hexec hinv.slots }

/-- Settles O13: pc by `exec_next_of_inv`, program and table because no instruction writes them (`exec_inputs`), memory and
tape by the form of each write. -/
theorem everyStepKeepsTheInvariant : Obligations.EveryStepKeepsTheInvariant :=
  fun _ _ hinv hstep => step_inv hinv hstep

theorem reachable_inv {s : State} (h : Reachable s) : s.Inv := by
  induction h with
  | construct l tape hload => exact construct_inv hload l tape
  | step _ hstep ih => exact step_inv ih hstep

/-- A state of the machine goes on: halted it stays, and below the end every step has a successor (O14). -/
theorem step_next_of_inv {s : State} (h : s.Inv) : ∃ t, step s = .next t := by
  rcases Nat.eq_or_lt_of_le h.pc_le with hend | hlt
  · exact ⟨s, step_halted (status_halted_iff.2 hend)⟩
  · obtain ⟨t, ht, -⟩ := EngineFamily.stepIsTotalBelowTheEnd s h hlt
    exact ⟨t, ht⟩

/-- Settles O15, by induction on the run that reaches the state. -/
theorem noReachableStateStops : Obligations.NoReachableStateStops :=
  fun _ hreach => ⟨reachable_inv hreach, step_next_of_inv (reachable_inv hreach)⟩

/-- Settles O8: an entry of the table is an index of the program (`jumpTarget_lt_length`, read at a constructed state). -/
theorem bracketTargetsLieInTheProgram : Obligations.BracketTargetsLieInTheProgram := by
  intro source p i j hload hj
  have hlt : j < p.toks.length := EngineFamily.jumpTarget_lt_length (construct_inv hload .afterMatch []) hj
  exact ⟨⟨Nat.succ_pos j, hlt⟩, hlt⟩

/-! ## A word placed for the next fetch -/

theorem withFetchWord_encode (s : State) (i : Instr) :
    s.withFetchWord 8 (encode i).toNat = s.withToken (encode i) := by
  rw [State.withFetchWord, Codec.ofNat_toNat_mod]

theorem fetchText_of_not_bracket {b : Byte} (hbrz : b ≠ encode .brz) (hbrnz : b ≠ encode .brnz) :
    fetchText b = [b] :=
  if_neg (not_or.2 ⟨hbrz, hbrnz⟩)

theorem fetch_withToken (s : State) (b : Byte) : fetch (s.withToken b) = some b := by
  rw [fetch, State.withToken_prog, State.withToken_pc]
  by_cases hbrz : b = encode .brz
  · subst hbrz; rfl
  · by_cases hbrnz : b = encode .brnz
    · subst hbrnz; rfl
    · rw [fetchText_of_not_bracket hbrz hbrnz, fetchIndex, if_neg hbrnz]
      rfl

/-- The placed program is one LOAD makes of its own text. -/
theorem load_fetchText (i : Instr) :
    load (fetchText (encode i)) =
      .loaded { toks := fetchText (encode i), jump := (matchBrackets (fetchText (encode i))).getD [] } := by
  rw [load_loaded_iff]
  by_cases hbrz : i = .brz
  · subst hbrz; exact ⟨rfl, rfl⟩
  · by_cases hbrnz : i = .brnz
    · subst hbrnz; exact ⟨rfl, rfl⟩
    · rw [← encode_inj] at hbrz hbrnz
      have hscan : matchBrackets [encode i] = some [] := scanBrackets_other hbrz hbrnz [] 0 [] []
      simp only [fetchText_of_not_bracket hbrz hbrnz, hscan]
      exact ⟨(EncodingFamily.tokens_cons_encode i []).symm, rfl⟩

/-- Placing a token leaves memory and tapes alone and brings a program with a table of its own, as LOAD made it. -/
theorem withToken_inv {s : State} (h : s.Inv) (i : Instr) : (s.withToken (encode i)).Inv := by
  have hloaded := construct_inv (load_fetchText i) s.landing s.ro
  exact {
    pc_le := Nat.le_of_lt (fetch_some_lt (fetch_withToken s (encode i)))
    toks := hloaded.toks
    table := hloaded.table
    mem := h.mem
    slots := h.slots }

/-- Settles O20: the placed token is fetched and decodes to its instruction, in a program LOAD accepts. -/
theorem fetchWordIsRunNext : Obligations.FetchWordIsRunNext := by
  intro s i
  rw [withFetchWord_encode]
  exact ⟨step_exec (fetch_withToken s (encode i)) (decode_encode i), fun hinv => withToken_inv hinv i,
    _, _, load_fetchText i, rfl⟩

end Sys2Proof.Proofs.Invariant
end

section
/-! PROOFS: what stops a step, and what STEP and SNAPSHOT report. -/

namespace Sys2Proof.Proofs.Stops

open Sys2Proof.Machine

/-- The only fault of an instruction: a bracket without an entry in the jump table (log 4). -/
theorem exec_fault {i : Instr} {s : State} {f : Fault} (h : exec i s = .fault f) :
    f = .noJumpEntry ∧ jumpTarget s.jump s.pc = none ∧ (i = .brz ∨ i = .brnz) := by
  rcases exec_stop (i := i) (s := s) with ⟨t, hnext⟩ | ⟨hfault, hnone, hbracket⟩
  · cases h.symm.trans hnext
  · cases h.symm.trans hfault
    exact ⟨rfl, hnone, hbracket.imp And.left And.left⟩

/-- All that a step that faults can have met: the end of the program passed, or an instruction that faults. -/
theorem step_fault {s : State} {f : Fault} (h : step s = .fault f) :
    f = .pcPastProgram ∨ ∃ i, exec i s = .fault f := by
  have hrunning := status_running_of_fault h
  cases hf : fetch s with
  | none =>
    cases h.symm.trans (step_past_program hrunning hf)
    exact .inl rfl
  | some b =>
    cases hd : decode b with
    | none => cases h.symm.trans (step_not_a_token hf hd)
    | some i => exact .inr ⟨i, (step_exec hf hd).symm.trans h⟩

/-- Settles O16: both ways a step can fault have a name of their own. -/
theorem runtimeFaultIsNeverRaised : Obligations.RuntimeFaultIsNeverRaised := by
  refine ⟨fun s hstep => ?_, fun i s f hexec => exec_fault hexec⟩
  rcases step_fault hstep with hpast | ⟨i, hexec⟩
  · cases hpast
  · cases (exec_fault hexec).1

/-- Settles O17. -/
theorem stepRunsTheDecodedInstruction : Obligations.StepRunsTheDecodedInstruction :=
  fun _ _ _ hfetch hdecode _ => step_exec hfetch hdecode

theorem decode_eq_none_iff {b : Byte} : decode b = none ↔ isToken b = false := by
  rw [isToken, Option.isSome_eq_false_iff, Option.isNone_iff_eq_none]

/-- Settles O19: one clause for each name. -/
theorem statesWithoutARuleStopByName : Obligations.StatesWithoutARuleStopByName := by
  have noEntry {s : State} (h : jumpTarget s.jump s.pc = none) : takeBracket s = .fault .noJumpEntry := by
    rw [takeBracket, h]
  refine ⟨fun s hpast => ?_, fun s b hfetch htoken => ?_, fun s hnone hzero => ?_, fun s hnone hnonzero => ?_⟩
  · exact step_past_program (status_running_iff.2 (Nat.ne_of_gt hpast)) (List.getElem?_eq_none (Nat.le_of_lt hpast))
  · exact step_not_a_token hfetch (decode_eq_none_iff.2 htoken)
  · exact (EngineFamily.exec_of_takesBracket (.inl ⟨rfl, hzero⟩)).trans (noEntry hnone)
  · exact (EngineFamily.exec_of_takesBracket (.inr ⟨rfl, hnonzero⟩)).trans (noEntry hnone)

theorem stepOperation_next {s t : State} (h : step s = .next t) : stepOperation s = .next (t, t.status) := by
  rw [stepOperation, h]

/-- Settles O18: STEP is the step with the status of its state, whose program is still the one of `s`. -/
theorem stepOperationReportsTheStatus : Obligations.StepOperationReportsTheStatus := by
  refine ⟨fun s hend => ?_, fun s t _ hstep => ?_⟩
  · have hhalted : s.status = .halted := status_halted_iff.2 hend
    rw [stepOperation_next (step_halted hhalted), hhalted]
  · obtain ⟨hprog, -, -, -⟩ := StateFamily.step_sameInputs hstep
    rw [stepOperation_next hstep, State.status, hprog]

/-- Settles O55: a snapshot holds each field of the state but the inputs. -/
theorem snapshotShowsTheWholeRunState : Obligations.SnapshotShowsTheWholeRunState := by
  refine ⟨fun s => status_halted_iff, fun s t hprog hjump hro hlanding => ⟨fun h => ?_, congrArg snapshot⟩⟩
  simp only [snapshot, Snapshot.mk.injEq] at h
  obtain ⟨hpc, hpage, hoff, hr, hm, hwo, hwoLog, -⟩ := h
  cases s
  cases t
  simp only [State.mk.injEq]
  exact ⟨hpc, hpage, hoff, hr, hm, hro, hwo, hwoLog, hprog, hjump, hlanding⟩

end Sys2Proof.Proofs.Stops
end

section
/-! PROOFS: what one instruction and one step may write, and on what they depend. -/

namespace Sys2Proof.Proofs.Frame

open Sys2Proof.Machine

/-! ## Brackets -/

theorem exec_bracket_of_not_takes {i : Instr} {s : State} (hi : i = .brz ∨ i = .brnz)
    (h : ¬ EngineFamily.TakesBracket i s) : exec i s = .next s.advance := by
  rcases hi with rfl | rfl
  · exact ControlFamily.exec_brz_of_cell_ne_zero fun hzero => h (.inl ⟨rfl, hzero⟩)
  · exact ControlFamily.exec_brnz_of_cell_eq_zero (by_contra fun hnonzero => h (.inr ⟨rfl, hnonzero⟩))

/-- A bracket writes `pc` alone, and what it writes depends on `pc`, `J`, the landing and the current cell alone. -/
theorem exec_bracket {i : Instr} {s t : State} (hi : i = .brz ∨ i = .brnz) (h : exec i s = .next t) :
    ∃ k, t = s.jumpTo k ∧ ∀ s' : State, s'.pc = s.pc → s'.jump = s.jump → s'.landing = s.landing →
      s'.cellAt s'.page s'.off = s.cellAt s.page s.off → exec i s' = .next (s'.jumpTo k) := by
  by_cases htakes : EngineFamily.TakesBracket i s
  · rw [EngineFamily.exec_of_takesBracket htakes] at h
    obtain ⟨j, hj, rfl⟩ := takeBracket_next h
    refine ⟨_, rfl, fun s' hpc hjump hlanding hcell => ?_⟩
    have htakes' : EngineFamily.TakesBracket i s' := by rwa [EngineFamily.TakesBracket, hcell]
    exact ControlFamily.next_of_takesBracket htakes' (by rw [hjump, hpc, hj]) (by rw [hlanding])
  · rw [exec_bracket_of_not_takes hi htakes] at h
    cases h
    refine ⟨s.pc + 1, rfl, fun s' hpc _ _ hcell => ?_⟩
    have htakes' : ¬ EngineFamily.TakesBracket i s' := by rwa [EngineFamily.TakesBracket, hcell]
    rw [exec_bracket_of_not_takes hi htakes', ← hpc]
    rfl

/-! ## Writers -/

/-- Settles O49: a bracket writes `pc` alone (`exec_bracket`), and every other next state is a named update, whose field laws
tell which pieces it keeps. -/
theorem eachStatePieceHasItsOwnWriters : Obligations.EachStatePieceHasItsOwnWriters := by
  intro i s t h
  cases i with
  | brz => obtain ⟨k, rfl, -⟩ := exec_bracket (.inl rfl) h; simp
  | brnz => obtain ⟨k, rfl, -⟩ := exec_bracket (.inr rfl) h; simp
  | offInc | offDec | setOff | setPage | pageInc | pageDec | inc | dec | inp | rstore | ror | nand | rload | out =>
    cases h; simp

/-- Settles O50: a halted machine writes nothing, and each form of an instruction's next state writes one piece besides
`pc`. -/
theorem atMostOneWritePerStep : Obligations.AtMostOneWritePerStep := by
  intro s t h
  rcases step_next h with ⟨-, rfl⟩ | ⟨b, i, -, -, -, hexec⟩
  · exact .inl rfl
  · cases exec_shape hexec with
    | off | passed | taken => exact .inl rfl
    | page => exact .inr (.inl rfl)
    | register => exact .inr (.inr (.inl rfl))
    | cell v =>
      refine .inr (.inr (.inr (.inl ⟨rfl, fun p o hother => ?_⟩)))
      rw [State.cellAt_advance, State.cellAt_setCell, if_neg hother]
    | tape =>
      refine .inr (.inr (.inr (.inr ⟨rfl, fun a ha => ?_⟩)))
      rw [State.advance_wo, State.tapeOut_wo, slotValue_slotWrite, if_neg ha,
        RegisterIoFamily.slotWritten_slotWrite_ite, if_neg ha]
      exact ⟨rfl, rfl⟩

/-! ## Two machines side by side -/

/-- Two machines with the same program at the same `pc`: where the one is halted so is the other, and where the one runs an
instruction the other runs the same. -/
theorem step_beside {s t s' : State} (h : step s = .next t) (hpc : s'.pc = s.pc) (hprog : s'.prog = s.prog) :
    (s.status = .halted ∧ t = s ∧ step s' = .next s') ∨
      ∃ b i, fetch s = some b ∧ decode b = some i ∧ exec i s = .next t ∧ step s' = exec i s' := by
  rcases step_next h with ⟨hhalted, rfl⟩ | ⟨b, i, hf, hd, -, hexec⟩
  · have hhalted' : s'.status = .halted := by rwa [State.status, hpc, hprog]
    exact .inl ⟨hhalted, rfl, step_halted hhalted'⟩
  · have hf' : fetch s' = some b := by rwa [fetch, hpc, hprog]
    exact .inr ⟨b, i, hf, hd, hexec, step_exec hf' hd⟩

/-! ## The write-only tape -/

/-- `s` with another write-only tape and log in place. -/
def withWriteTape (s : State) (wo : WriteTape) (log : WriteLog) : State := { s with wo := wo, woLog := log }

/-- The slots after the writes (address, value), made one after another. -/
def writeSlots (wo : WriteTape) (writes : WriteLog) : WriteTape := writes.foldl (fun wo e => slotWrite wo e.1 e.2) wo

theorem writeSlots_append (wo : WriteTape) (a b : WriteLog) :
    writeSlots wo (a ++ b) = writeSlots (writeSlots wo a) b :=
  List.foldl_append

/-- The run from `s` to `t` writes these slots of `WO` in this order, whatever the tape and the log hold: `run` is an
instruction, a step, or some steps. -/
def Writes (run : State → StepResult) (s t : State) (writes : WriteLog) : Prop :=
  ∀ wo log, run (withWriteTape s wo log) = .next (withWriteTape t (writeSlots wo writes) (log ++ writes))

/-- A run that writes nothing leaves any tape and log as they are. -/
theorem writes_nil {run : State → StepResult} {s t : State}
    (h : ∀ wo log, run (withWriteTape s wo log) = .next (withWriteTape t wo log)) : Writes run s t [] :=
  fun wo log => by rw [h, List.append_nil]; rfl

/-- No instruction reads `WO` or its log; OUT makes one write, and the others none. -/
theorem exec_writes {i : Instr} {s t : State} (h : exec i s = .next t) : ∃ writes, Writes (exec i) s t writes := by
  have bracket (hi : i = .brz ∨ i = .brnz) : Writes (exec i) s t [] := by
    obtain ⟨k, rfl, hbeside⟩ := exec_bracket hi h
    exact writes_nil fun wo log => hbeside (withWriteTape s wo log) rfl rfl rfl rfl
  cases i with
  | brz => exact ⟨[], bracket (.inl rfl)⟩
  | brnz => exact ⟨[], bracket (.inr rfl)⟩
  | out => cases h; exact ⟨[(s.r, s.cell)], fun wo log => rfl⟩
  | offInc | offDec | setOff | setPage | pageInc | pageDec | inc | dec | inp | rstore | ror | nand | rload =>
    cases h; exact ⟨[], writes_nil fun wo log => rfl⟩

theorem step_writes {s t : State} (h : step s = .next t) : ∃ writes, Writes step s t writes := by
  rcases step_next h with ⟨hhalted, rfl⟩ | ⟨b, i, hf, hd, -, hexec⟩
  · exact ⟨[], writes_nil fun wo log => step_halted (s := withWriteTape t wo log) hhalted⟩
  · obtain ⟨writes, hwrites⟩ := exec_writes hexec
    exact ⟨writes, fun wo log => (step_exec (s := withWriteTape s wo log) hf hd).trans (hwrites wo log)⟩

theorem stepN_writes {n : Nat} {s t : State} (h : stepN n s = .next t) : ∃ writes, Writes (stepN n) s t writes := by
  induction n generalizing s with
  | zero => cases h; exact ⟨[], writes_nil fun wo log => rfl⟩
  | succ n ih =>
    obtain ⟨u, hu, hrest⟩ := stepN_succ_next h
    obtain ⟨first, hfirst⟩ := step_writes hu
    obtain ⟨rest, hrest⟩ := ih hrest
    refine ⟨first ++ rest, fun wo log => ?_⟩
    rw [stepN_succ (hfirst wo log), hrest, writeSlots_append, List.append_assoc]

/-- Settles O52, by induction on the number of steps (`stepN_writes`): the first two clauses are the third read at the tape
and the log of `s` itself. -/
theorem writeTapeIsNeverReadBack : Obligations.WriteTapeIsNeverReadBack := by
  intro n s t h
  obtain ⟨writes, hwrites⟩ := stepN_writes h
  have hself : t = withWriteTape t (writeSlots s.wo writes) (s.woLog ++ writes) :=
    Host.Outcome.next.inj (h.symm.trans (hwrites s.wo s.woLog))
  exact ⟨writes, congrArg State.woLog hself, congrArg State.wo hself, hwrites⟩

/-! ## The read-only tape -/

/-- `s` with the first 65536 values of its read-only tape only. -/
def withTapeStart (s : State) : State := { s with ro := s.ro.take 65536 }

/-- A 16-bit address reaches no further. -/
theorem tapeRead_take (ro : List Word) (a : Word) : tapeRead (ro.take 65536) a = tapeRead ro a := by
  rw [tapeRead, tapeRead, List.getElem?_take_of_lt a.isLt]

/-- IN alone reads the tape, and only at an address of 16 bits. -/
theorem exec_withTapeStart {i : Instr} {s t : State} (h : exec i s = .next t) :
    exec i (withTapeStart s) = .next (withTapeStart t) := by
  have bracket (hi : i = .brz ∨ i = .brnz) : exec i (withTapeStart s) = .next (withTapeStart t) := by
    obtain ⟨k, rfl, hbeside⟩ := exec_bracket hi h
    exact hbeside (withTapeStart s) rfl rfl rfl rfl
  cases i with
  | brz => exact bracket (.inl rfl)
  | brnz => exact bracket (.inr rfl)
  | inp =>
    rw [RegisterIoFamily.exec_inp] at h ⊢
    cases h
    rw [show tapeRead (withTapeStart s).ro (withTapeStart s).r = tapeRead s.ro s.r from tapeRead_take s.ro s.r]
    rfl
  | offInc | offDec | setOff | setPage | pageInc | pageDec | inc | dec | rstore | ror | nand | rload | out =>
    cases h; rfl

theorem step_withTapeStart {s t : State} (h : step s = .next t) : step (withTapeStart s) = .next (withTapeStart t) := by
  rcases step_beside (s' := withTapeStart s) h rfl rfl with ⟨-, rfl, hstep⟩ | ⟨b, i, -, -, hexec, hstep⟩
  · exact hstep
  · exact hstep.trans (exec_withTapeStart hexec)

theorem stepN_withTapeStart {n : Nat} {s t : State} (h : stepN n s = .next t) :
    stepN n (withTapeStart s) = .next (withTapeStart t) := by
  induction n generalizing s with
  | zero => cases h; rfl
  | succ n ih =>
    obtain ⟨u, hu, hrest⟩ := stepN_succ_next h
    exact (stepN_succ (step_withTapeStart hu)).trans (ih hrest)

/-- Settles O53, by induction on the number of steps (`stepN_withTapeStart`); the tape of `t` is still the one of `s`. -/
theorem readTapeBeyond65536IsNeverRead : Obligations.ReadTapeBeyond65536IsNeverRead := by
  intro n s t h
  obtain ⟨-, -, hro, -⟩ := StateFamily.stepN_sameInputs h
  have htape : withTapeStart t = { t with ro := s.ro.take 65536 } := by rw [withTapeStart, hro]
  rw [← htape]
  exact stepN_withTapeStart h

end Sys2Proof.Proofs.Frame
end

section
/-! PROOFS: the run of an OnMatch machine beside that of an AfterMatch machine (43_control.md section 3). -/

namespace Sys2Proof.Proofs.Landing

open Sys2Proof.Machine

theorem bracketTaken_iff {s : State} {b : Byte} {i : Instr} (hf : fetch s = some b) (hd : decode b = some i) :
    bracketTaken s = true ↔ EngineFamily.TakesBracket i s := by
  rw [bracketTaken_of_fetch hf hd, EngineFamily.TakesBracket, ← cellIsZero_iff, ← cellIsZero_false_iff]
  simp

theorem takenIn_succ {n : Nat} {s t : State} (h : step s = .next t) :
    takenIn (n + 1) s = (if bracketTaken s then 1 else 0) + takenIn n t := by
  rw [takenIn, h]

/-- The steps of a run, taken in two parts. -/
theorem stepN_add {m : Nat} {s t : State} (h : stepN m s = .next t) (n : Nat) : stepN (m + n) s = stepN n t := by
  induction m generalizing s with
  | zero => cases h; rw [Nat.zero_add]
  | succ m ih =>
    obtain ⟨u, hu, hrest⟩ := stepN_succ_next h
    rw [Nat.succ_add, stepN_succ hu, ih hrest]

/-- Only a taken bracket looks at the landing. -/
theorem exec_onMatch_of_not_takes {i : Instr} {s t : State} (hnot : ¬ EngineFamily.TakesBracket i s)
    (h : exec i s = .next t) : exec i s.onMatch = .next t.onMatch := by
  have bracket (hi : i = .brz ∨ i = .brnz) : exec i s.onMatch = .next t.onMatch := by
    rw [Frame.exec_bracket_of_not_takes hi hnot] at h
    cases h
    exact Frame.exec_bracket_of_not_takes (s := s.onMatch) hi hnot
  cases i with
  | brz => exact bracket (.inl rfl)
  | brnz => exact bracket (.inr rfl)
  | offInc | offDec | setOff | setPage | pageInc | pageDec | inc | dec | inp | rstore | ror | nand | rload | out =>
    cases h; rfl

/-- The partner of a taken bracket is a bracket of the other kind, which the same cell makes pass. -/
theorem partner_not_takes {s : State} {i : Instr} {j : Nat} (hinv : s.Inv) (hf : fetch s = some (encode i))
    (htakes : EngineFamily.TakesBracket i s) (hj : jumpTarget s.jump s.pc = some j) :
    ∃ i', s.prog[j]? = some (encode i') ∧ (i' = .brz ∨ i' = .brnz) ∧ ¬ EngineFamily.TakesBracket i' s := by
  have hmatching := EngineFamily.inv_strictMatching hinv
  rcases htakes with ⟨rfl, hzero⟩ | ⟨rfl, hnonzero⟩
  · obtain ⟨-, -, hend⟩ := EncodingFamily.isPairAt_of_strictMatching hmatching hf hj
    exact ⟨.brnz, hend, .inr rfl, by simp [EngineFamily.TakesBracket, hzero]⟩
  · obtain ⟨hbegin, -, -⟩ := Matching.isPairAt_of_end hmatching hf hj
    exact ⟨.brz, hbegin, .inl rfl, by simp [EngineFamily.TakesBracket, hnonzero]⟩

/-- Under OnMatch a taken bracket lands on its partner, and the partner passes on to where AfterMatch lands. -/
theorem stepN_two_onMatch_of_takes {s t : State} {b : Byte} {i : Instr} (hinv : s.Inv) (hlanding : s.landing = .afterMatch)
    (hf : fetch s = some b) (hd : decode b = some i) (htakes : EngineFamily.TakesBracket i s)
    (h : exec i s = .next t) : stepN 2 s.onMatch = .next t.onMatch := by
  rw [EngineFamily.exec_of_takesBracket htakes] at h
  obtain ⟨j, hj, rfl⟩ := takeBracket_next h
  obtain ⟨i', hf', hi', hnot⟩ := partner_not_takes hinv (decode_eq_some.1 hd ▸ hf) htakes hj
  have hland : step s.onMatch = .next (s.jumpTo j).onMatch :=
    (step_exec (s := s.onMatch) hf hd).trans (ControlFamily.next_of_takesBracket (s := s.onMatch) htakes hj rfl)
  have hpass : step (s.jumpTo j).onMatch = .next (s.jumpTo j).onMatch.advance :=
    (step_exec (s := (s.jumpTo j).onMatch) hf' (decode_encode i')).trans
      (Frame.exec_bracket_of_not_takes (s := (s.jumpTo j).onMatch) hi' hnot)
  rw [stepN_succ hland, stepN_succ hpass, hlanding]
  rfl

/-- One step AfterMatch is one step OnMatch, or two where it takes a bracket. -/
theorem stepN_onMatch_of_step {s t : State} (hinv : s.Inv) (hlanding : s.landing = .afterMatch) (h : step s = .next t) :
    stepN (1 + if bracketTaken s then 1 else 0) s.onMatch = .next t.onMatch := by
  rcases Frame.step_beside (s' := s.onMatch) h rfl rfl with ⟨hhalted, rfl, hstep⟩ | ⟨b, i, hf, hd, hexec, hstep⟩
  · rw [bracketTaken_halted hhalted]
    exact stepN_succ hstep
  · by_cases htakes : EngineFamily.TakesBracket i s
    · rw [if_pos ((bracketTaken_iff hf hd).2 htakes)]
      exact stepN_two_onMatch_of_takes hinv hlanding hf hd htakes hexec
    · rw [if_neg (mt (bracketTaken_iff hf hd).1 htakes)]
      exact stepN_succ (hstep.trans (exec_onMatch_of_not_takes htakes hexec))

/-- Settles O40, by induction on the number of steps, each of which is `stepN_onMatch_of_step`. -/
theorem onMatchRunFollowsAfterMatchRun : Obligations.OnMatchRunFollowsAfterMatchRun := by
  intro n
  induction n with
  | zero => intro s t _ _ h; cases h; rfl
  | succ n ih =>
    intro s t hinv hlanding h
    obtain ⟨u, hu, hrest⟩ := stepN_succ_next h
    obtain ⟨-, -, -, hlanding'⟩ := StateFamily.step_sameInputs hu
    have hcount : n + 1 + takenIn (n + 1) s = (1 + if bracketTaken s then 1 else 0) + (n + takenIn n u) := by
      rw [takenIn_succ hu]
      omega
    rw [hcount, stepN_add (stepN_onMatch_of_step hinv hlanding hu)]
    exact ih u t (Invariant.step_inv hinv hu) (hlanding'.trans hlanding) hrest

end Sys2Proof.Proofs.Landing
end

section
/-! PROOFS: straight pieces of program: pointer moves, and instructions that follow one another on one cell. -/

namespace Sys2Proof.Proofs.Straight

open Sys2Proof.Machine

/-- A straight piece in two parts, where the first goes on. -/
theorem execSeq_append {is : List Instr} {s t : State} (h : execSeq is s = .next t) (js : List Instr) :
    execSeq (is ++ js) s = execSeq js t := by
  induction is generalizing s with
  | nil => cases h; rfl
  | cons i is ih =>
    rcases exec_stop (i := i) (s := s) with ⟨u, hu⟩ | ⟨hfault, -, -⟩
    · rw [execSeq_cons hu] at h
      rw [List.cons_append, execSeq_cons hu, ih h]
    · rw [execSeq, hfault] at h
      cases h

/-! ## Pointer moves -/

/-- What some offset moves add to off: the increments less the decrements (41_pointer.md R102). -/
def offsetBalance (is : List Instr) : Int := is.count .offInc - is.count .offDec

theorem offsetBalance_cons (i : Instr) (is : List Instr) :
    offsetBalance (i :: is) = offsetBalance [i] + offsetBalance is := by
  simp only [offsetBalance, List.count_cons, List.count_nil]
  omega

theorem exec_offsetMove {i : Instr} (hi : i = .offInc ∨ i = .offDec) (s : State) :
    exec i s = .next { s with off := s.off + BitVec.ofInt 16 (offsetBalance [i]), pc := s.pc + 1 } := by
  rcases hi with rfl | rfl
  · exact PointerFamily.next_of_setOff (PointerFamily.exec_offInc s) rfl
  · exact PointerFamily.next_of_setOff (PointerFamily.exec_offDec s) (BitVec.sub_eq_add_neg s.off 1#16)

/-- Offset moves change off by their balance, in words of 16 bits, and nothing else but pc. -/
theorem execSeq_offsetMoves {is : List Instr} (h : ∀ i ∈ is, i = .offInc ∨ i = .offDec) (s : State) :
    execSeq is s = .next { s with off := s.off + BitVec.ofInt 16 (offsetBalance is), pc := s.pc + is.length } := by
  induction is generalizing s with
  | nil =>
    have hnone : s.off + BitVec.ofInt 16 (offsetBalance []) = s.off := BitVec.add_zero s.off
    rw [execSeq_nil, hnone]
    rfl
  | cons i is ih =>
    obtain ⟨hi, his⟩ := List.forall_mem_cons.1 h
    rw [execSeq_cons (exec_offsetMove hi s), ih his, offsetBalance_cons i is, BitVec.ofInt_add, ← BitVec.add_assoc,
      List.length_cons, Nat.add_comm is.length, ← Nat.add_assoc]

/-- The sum in words is the spec's integer sum modulo 65536. -/
theorem ofInt_emod_eq_add (w : Word) (k : Int) :
    BitVec.ofInt 16 (((w.toNat : Int) + k) % 65536) = w + BitVec.ofInt 16 k := by
  apply BitVec.eq_of_toNat_eq
  rw [BitVec.toNat_add, BitVec.toNat_ofInt, BitVec.toNat_ofInt]
  omega

theorem execSeq_replicate_offInc (n : Nat) (s : State) :
    execSeq (List.replicate n .offInc) s =
      .next { s with off := s.off + BitVec.ofNat 16 n, pc := s.pc + n } := by
  have hmoves : ∀ i ∈ List.replicate n Instr.offInc, i = .offInc ∨ i = .offDec :=
    fun i hi => .inl (List.eq_of_mem_replicate hi)
  have hbalance : offsetBalance (List.replicate n .offInc) = n := by
    rw [offsetBalance, List.count_replicate_self, List.count_replicate, if_neg (by decide)]
    exact Int.sub_zero n
  rw [execSeq_offsetMoves hmoves, hbalance, BitVec.ofInt_natCast, List.length_replicate]

/-- Settles O27: the moves change off by their balance (`execSeq_offsetMoves`), and 65536 is 0 as a word. -/
theorem offsetMovesNeverCarryIntoThePage : Obligations.OffsetMovesNeverCarryIntoThePage := by
  refine ⟨fun is s his => ?_, fun s => ?_⟩
  · rw [execSeq_offsetMoves his, Int.add_sub_assoc, ofInt_emod_eq_add]
    rfl
  · have hround : s.off + BitVec.ofNat 16 65536 = s.off := BitVec.add_zero s.off
    rw [execSeq_replicate_offInc, hround]

theorem execSeq_replicate_pageInc (n : Nat) (s : State) :
    execSeq (List.replicate n .pageInc) s =
      .next { s with page := s.page + BitVec.ofNat 16 n, pc := s.pc + n } := by
  induction n generalizing s with
  | zero => rw [BitVec.add_zero]; rfl
  | succ n ih =>
    rw [List.replicate_succ, execSeq_cons (PointerFamily.next_of_setPage (PointerFamily.exec_pageInc s) rfl), ih,
      Nat.add_comm n 1, BitVec.ofNat_add, ← BitVec.add_assoc, ← Nat.add_assoc]
    rfl

/-- The increments that lead from one word to another. -/
theorem add_ofNat_sub_toNat (v w : Word) : v + BitVec.ofNat 16 (w - v).toNat = w := by
  rw [BitVec.ofNat_toNat, BitVec.setWidth_eq, BitVec.add_comm, BitVec.sub_add_cancel]

/-- Settles O28: as many offset increments as lead from off to the given offset, then as many page increments as lead from
page to the given page. -/
theorem pointerMovesReachEveryCell : Obligations.PointerMovesReachEveryCell := by
  intro s p o
  refine ⟨List.replicate (o - s.off).toNat .offInc ++ List.replicate (p - s.page).toNat .pageInc, fun i hi => ?_, ?_⟩
  · rcases List.mem_append.1 hi with hi | hi
    · exact .inl (List.eq_of_mem_replicate hi)
    · exact .inr (.inr (.inl (List.eq_of_mem_replicate hi)))
  · rw [execSeq_append (execSeq_replicate_offInc _ s), execSeq_replicate_pageInc]
    simp only [add_ofNat_sub_toNat, List.length_append, List.length_replicate, Nat.add_assoc]

/-! ## Two instructions on one cell -/

/-- Two instructions that replace the current cell `c` by `f c` and then that by its `g`, where `g` undoes `f`: they complete,
and every cell is as it was. -/
theorem execSeq_pair_restores {i j : Instr} {f g : Word → Word}
    (hi : ∀ s, exec i s = .next (s.setCell (f (s.cellAt s.page s.off))).advance)
    (hj : ∀ s, exec j s = .next (s.setCell (g (s.cellAt s.page s.off))).advance)
    (hundo : Function.LeftInverse g f) (s : State) :
    ∃ t, execSeq [i, j] s = .next t ∧ t = { s with pc := s.pc + 2, m := t.m } ∧
      ∀ p o, t.cellAt p o = s.cellAt p o := by
  obtain ⟨u, hu, hframe, hcells⟩ := next_of_setCell (hi s)
  obtain ⟨t, ht, hframe', hcells'⟩ := next_of_setCell (hj u)
  have hpage : u.page = s.page := by rw [hframe]
  have hoff : u.off = s.off := by rw [hframe]
  have hcell : u.cellAt s.page s.off = f (s.cellAt s.page s.off) := (hcells s.page s.off).trans (if_pos ⟨rfl, rfl⟩)
  refine ⟨t, ?_, ?_, fun p o => ?_⟩
  · rw [execSeq_cons hu, execSeq_cons ht, execSeq_nil]
  · rw [hframe', hframe]
  · rw [hcells', hpage, hoff, hcell, hundo, hcells]
    split
    · next hcur => obtain ⟨rfl, rfl⟩ := hcur; rfl
    · rfl

theorem wordDec_wordInc (c : Word) : wordDec (wordInc c) = c := BitVec.add_sub_cancel c 1#16
theorem wordInc_wordDec (c : Word) : wordInc (wordDec c) = c := BitVec.sub_add_cancel c 1#16

/-- Settles O31: each of the two undoes the other, the wrap at 0 and at 65535 included. -/
theorem incrementAndDecrementCancel : Obligations.IncrementAndDecrementCancel := fun s =>
  ⟨execSeq_pair_restores AluFamily.exec_inc AluFamily.exec_dec wordDec_wordInc s,
    execSeq_pair_restores AluFamily.exec_dec AluFamily.exec_inc wordInc_wordDec s⟩

theorem wordNand_comm (a b : Word) : wordNand a b = wordNand b a := by
  rw [wordNand, wordNand, BitVec.and_comm]

theorem wordNand_self (a : Word) : wordNand a a = ~~~a := by
  rw [wordNand, BitVec.and_self]

/-- Settles O35: NAND's value is symmetric in the cell and R. -/
theorem nandOperandOrderDoesNotMatter : Obligations.NandOperandOrderDoesNotMatter := by
  intro s s' hcell hr
  obtain ⟨t, ht, -, -, hvalue⟩ := AluFamily.next_of_setCell_split (AluFamily.exec_nand s)
  obtain ⟨t', ht', -, -, hvalue'⟩ := AluFamily.next_of_setCell_split (AluFamily.exec_nand s')
  exact ⟨t, t', ht, ht', by rw [hvalue, hvalue', hcell, hr, wordNand_comm]⟩

/-- Settles O36: RLOAD moves neither the pointer nor the cells, so NAND meets the cell as both its operands. -/
theorem complementOfTheCell : Obligations.ComplementOfTheCell := by
  intro s
  obtain ⟨t, ht, hframe, hcells⟩ :=
    next_of_setCell (AluFamily.exec_nand (s.setR (s.cellAt s.page s.off)).advance)
  refine ⟨t, ?_, hframe, fun p o => (hcells p o).trans ?_⟩
  · rw [execSeq_cons (RegisterIoFamily.exec_rload s), execSeq_cons ht, execSeq_nil]
  · simp only [State.cellAt_advance, State.cellAt_setR, State.advance_r, State.setR_r, State.advance_page,
      State.setR_page, State.advance_off, State.setR_off, wordNand_self]

/-! ## Rotation -/

/-- Fifteen more rotations undo one. -/
theorem rotateRight1_injective : Function.Injective rotateRight1 :=
  Function.LeftInverse.injective (g := rotateRight1^[15]) AluFamily.iterate_rotateRight1_16

theorem iterate_rotateRight1_eq_zero_iff (n : Nat) (c : Word) : rotateRight1^[n] c = 0#16 ↔ c = 0#16 :=
  (rotateRight1_injective.iterate n).eq_iff' (Function.iterate_fixed (show rotateRight1 0#16 = 0#16 by decide) n)

/-- Settles O34: rotations are injective and keep 0. -/
theorem rotationNeverMakesZero : Obligations.RotationNeverMakesZero := by
  intro n s
  obtain ⟨t, ht, hframe, hcells⟩ := AluFamily.execSeq_replicate_of_setCell AluFamily.exec_ror n s
  refine ⟨t, ht, hframe, ?_, fun p o hother => (hcells p o).trans (if_neg hother)⟩
  rw [hcells, if_pos ⟨rfl, rfl⟩, iterate_rotateRight1_eq_zero_iff]

end Sys2Proof.Proofs.Straight
end

section
/-! PROOFS: what memory and the slots of `WO` hold as data. -/

namespace Sys2Proof.Proofs.Contents

open Sys2Proof.Machine

/-! ## Data memory -/

/-- In canonical form a cell is listed exactly if it does not read 0, so a read tells what is listed. -/
theorem find_eq_of_wf {m : Memory} (h : Memory.wf m) (p o : Word) :
    SparseMap.find m (cellAddr p o) = if memRead m p o = unlistedCell then none else some (memRead m p o) := by
  cases hfind : SparseMap.find m (cellAddr p o) with
  | none =>
    have hread : memRead m p o = unlistedCell := by rw [memRead, hfind, Option.getD_none]
    rw [if_pos hread]
  | some v =>
    obtain ⟨-, hnonzero⟩ := h.2 _ (SparseMap.mem_of_find hfind)
    have hread : memRead m p o = v := by rw [memRead, hfind, Option.getD_some]
    rw [hread, if_neg hnonzero]

/-- Every address inside the space is a cell's. -/
theorem exists_cellAddr {a : Nat} (h : a < Config.memoryCells) : ∃ p o, cellAddr p o = a := by
  refine ⟨BitVec.ofNat 16 (a / 65536), BitVec.ofNat 16 (a % 65536), ?_⟩
  simp only [Config.memoryCells, Config.pageCells] at h
  simp only [cellAddr, Config.pageCells, BitVec.toNat_ofNat]
  omega

theorem find_eq_none_of_wf {m : Memory} (h : Memory.wf m) {a : Nat} (ha : Config.memoryCells ≤ a) :
    SparseMap.find m a = none := by
  rw [Option.eq_none_iff_forall_ne_some]
  intro v hv
  obtain ⟨hlt, -⟩ := h.2 _ (SparseMap.mem_of_find hv)
  exact Nat.not_lt_of_le ha hlt

/-- Settles O46: reads tell what is listed at each address of the space, nothing is listed beyond it, and rising lists with
equal lookups are equal (`SparseMap.ext_of_rising`). -/
theorem equalContentsAreEqualMemories : Obligations.EqualContentsAreEqualMemories := by
  intro m₁ m₂ h₁ h₂ hreads
  refine SparseMap.ext_of_rising h₁.1 h₂.1 fun a => ?_
  rcases Nat.lt_or_ge a Config.memoryCells with hlt | hge
  · obtain ⟨p, o, rfl⟩ := exists_cellAddr hlt
    rw [find_eq_of_wf h₁, find_eq_of_wf h₂, hreads]
  · rw [find_eq_none_of_wf h₁ hge, find_eq_none_of_wf h₂ hge]

/-! ## The slots of the write-only tape -/

/-- The value of the last entry the log has for slot `a` (20_memory.md R48), if there is one. -/
def lastLogged (log : WriteLog) (a : Word) : Option Word :=
  (log.reverse.find? (fun e => decide (e.1 = a))).map (fun e => e.2)

@[simp] theorem lastLogged_nil (a : Word) : lastLogged [] a = none := rfl

/-- A further write hides the earlier ones of its own slot, and no others. -/
theorem lastLogged_concat (log : WriteLog) (b v a : Word) :
    lastLogged (log ++ [(b, v)]) a = if a = b then some v else lastLogged log a := by
  rw [lastLogged, List.reverse_concat]
  by_cases h : a = b
  · rw [List.find?_cons_of_pos (by simp [h]), if_pos h, Option.map_some]
  · rw [List.find?_cons_of_neg (by simp [Ne.symm h]), if_neg h, lastLogged]

/-- A slot lists the last write the log has for it. -/
theorem find_slotsOfLog (log : WriteLog) (a : Word) :
    SparseMap.find (slotsOfLog log) a.toNat = lastLogged log a := by
  induction log using List.reverseRecOn with
  | nil => rfl
  | append_singleton log e ih =>
    obtain ⟨b, v⟩ := e
    rw [slotsOfLog_append, slotWrite, SparseMap.find_insert, lastLogged_concat, ih]
    simp only [BitVec.toNat_inj]

theorem isSome_lastLogged (log : WriteLog) (a : Word) :
    (lastLogged log a).isSome = log.any (fun e => decide (e.1 = a)) := by
  rw [lastLogged, Option.isSome_map, Bool.eq_iff_iff, List.find?_isSome, List.any_eq_true]
  simp only [List.mem_reverse]

/-- Settles O48: under the invariant the slots are those the log leaves, and each lists its last write (`find_slotsOfLog`). -/
theorem slotsHoldTheLastLoggedWrite : Obligations.SlotsHoldTheLastLoggedWrite := by
  intro s a hinv
  rw [hinv.slots, slotWritten, slotValue, find_slotsOfLog]
  refine ⟨isSome_lastLogged s.woLog a, ?_⟩
  rw [lastLogged]
  cases s.woLog.reverse.find? (fun e => decide (e.1 = a)) with
  | none => rfl
  | some e => rfl

end Sys2Proof.Proofs.Contents
end

section
/-! PROOFS: how a RUN ends (40_engine.md sections 3 and 4, 60_exceptions.md section 4). -/

namespace Sys2Proof.Proofs.Run

open Sys2Proof.Machine

/-! ## Runs of some steps -/

theorem stepN_halted {s : State} (h : s.status = .halted) (n : Nat) : stepN n s = .next s := by
  induction n with
  | zero => rfl
  | succ n ih => rw [stepN_succ (step_halted h), ih]

/-- A run of at least one step goes on exactly where its first step does and the others do. -/
theorem stepN_succ_iff {n : Nat} {s t : State} :
    stepN (n + 1) s = .next t ↔ ∃ u, step s = .next u ∧ stepN n u = .next t :=
  ⟨stepN_succ_next, fun ⟨_, hu, hrest⟩ => (stepN_succ hu).trans hrest⟩

/-! ## The first halted state -/

/-- `k` steps lead from `s` to the halted state `t`, and the machine is not halted before. -/
def HaltsAfter (k : Nat) (s t : State) : Prop :=
  stepN k s = .next t ∧ t.pc = t.prog.length ∧ ∀ j u, j < k → stepN j s = .next u → u.pc ≠ u.prog.length

theorem haltsAfter_iff_of_halted {k : Nat} {s t : State} (h : s.status = .halted) :
    HaltsAfter k s t ↔ k = 0 ∧ t = s := by
  have hend := status_halted_iff.1 h
  constructor
  · rintro ⟨hrun, -, hbefore⟩
    have hzero : k = 0 := by
      by_contra hk
      exact hbefore 0 s (Nat.pos_of_ne_zero hk) rfl hend
    subst hzero
    cases hrun
    exact ⟨rfl, rfl⟩
  · rintro ⟨rfl, rfl⟩
    exact ⟨rfl, hend, fun j u hj => absurd hj (Nat.not_lt_zero j)⟩

theorem not_haltsAfter_zero {s t : State} (h : s.status = .running) : ¬ HaltsAfter 0 s t := by
  rintro ⟨hrun, hend, -⟩
  cases hrun
  exact status_running_iff.1 h hend

theorem haltsAfter_succ_iff {k : Nat} {s t : State} (h : s.status = .running) :
    HaltsAfter (k + 1) s t ↔ ∃ u, step s = .next u ∧ HaltsAfter k u t := by
  constructor
  · rintro ⟨hrun, hend, hbefore⟩
    obtain ⟨u, hu, hrest⟩ := stepN_succ_next hrun
    exact ⟨u, hu, hrest, hend, fun j v hj hv => hbefore (j + 1) v (Nat.succ_lt_succ hj) ((stepN_succ hu).trans hv)⟩
  · rintro ⟨u, hu, hrest, hend, hbefore⟩
    refine ⟨(stepN_succ hu).trans hrest, hend, fun j v hj hv => ?_⟩
    cases j with
    | zero => cases hv; exact status_running_iff.1 h
    | succ j => exact hbefore j v (Nat.lt_of_succ_lt_succ hj) ((stepN_succ hu).symm.trans hv)

/-- From a state that is not halted, the end lies one step further than from the next state. -/
theorem exists_haltsAfter_succ_iff {n : Nat} {s t : State} (h : s.status = .running) :
    (∃ k ≤ n + 1, HaltsAfter k s t) ↔ ∃ u, step s = .next u ∧ ∃ k ≤ n, HaltsAfter k u t := by
  constructor
  · rintro ⟨k, hk, hhalts⟩
    cases k with
    | zero => exact absurd hhalts (not_haltsAfter_zero h)
    | succ k =>
      obtain ⟨u, hu, hrest⟩ := (haltsAfter_succ_iff h).1 hhalts
      exact ⟨u, hu, k, Nat.le_of_succ_le_succ hk, hrest⟩
  · rintro ⟨u, hu, k, hk, hrest⟩
    exact ⟨k + 1, Nat.succ_le_succ hk, (haltsAfter_succ_iff h).2 ⟨u, hu, hrest⟩⟩

theorem runToCompletion_eq_halted_iff (n : Nat) (s t : State) :
    runToCompletion n s = .halted t ↔ ∃ k ≤ n, HaltsAfter k s t := by
  induction n generalizing s with
  | zero =>
    cases hs : s.status with
    | halted => simp [runToCompletion_halted 0 hs, haltsAfter_iff_of_halted hs, eq_comm]
    | running => simp [runToCompletion_zero hs, not_haltsAfter_zero hs]
  | succ n ih =>
    cases hs : s.status with
    | halted => simp [runToCompletion_halted (n + 1) hs, haltsAfter_iff_of_halted hs, eq_comm]
    | running =>
      rw [exists_haltsAfter_succ_iff hs]
      cases hstep : step s with
      | next u => simp [runToCompletion_next n hs hstep, ih]
      | fault f => simp [runToCompletion_fault n hstep]
      | refused r => simp [runToCompletion_refused n hstep]

/-- Settles O54, by induction on the budget: a halted state is its own end, and any other has its end one step further. -/
theorem runReturnsTheFirstHaltedState : Obligations.RunReturnsTheFirstHaltedState :=
  fun n s t => runToCompletion_eq_halted_iff n s t

/-! ## Stops -/

/-- How a RUN ends at the state `u` whose step has the given outcome. An outcome that goes on leaves it running. -/
def endAt (u : State) : StepResult → RunResult
  | .next _ => .running u
  | .fault f => .fault u f
  | .refused r => .refused u r

/-- The outcome of a step that stops the machine. -/
def IsStop (o : StepResult) : Prop := ∀ t, o ≠ .next t

theorem isStop_fault (f : Fault) : IsStop (.fault f) := fun _ h => by cases h
theorem isStop_refused (r : Refusal) : IsStop (.refused r) := fun _ h => by cases h

theorem endAt_inj {u u' : State} {o o' : StepResult} (ho : IsStop o) (ho' : IsStop o') :
    endAt u o = endAt u' o' ↔ u = u' ∧ o = o' := by
  cases o with
  | next t => exact absurd rfl (ho t)
  | fault f =>
    cases o' with
    | next t => exact absurd rfl (ho' t)
    | fault f' => simp [endAt]
    | refused r' => simp [endAt]
  | refused r =>
    cases o' with
    | next t => exact absurd rfl (ho' t)
    | fault f' => simp [endAt]
    | refused r' => simp [endAt]

theorem halted_ne_endAt {s u : State} {o : StepResult} : RunResult.halted s ≠ endAt u o := by
  cases o <;> simp [endAt]

theorem running_ne_endAt {s u : State} {o : StepResult} (ho : IsStop o) : RunResult.running s ≠ endAt u o := by
  cases o with
  | next t => exact absurd rfl (ho t)
  | fault f => simp [endAt]
  | refused r => simp [endAt]

/-- A stop ends a run at the state before it (60_exceptions.md R186). -/
theorem runToCompletion_of_stop {s : State} {o : StepResult} (n : Nat) (ho : IsStop o) (h : step s = o) :
    runToCompletion (n + 1) s = endAt s o := by
  cases o with
  | next t => exact absurd rfl (ho t)
  | fault f => exact runToCompletion_fault n h
  | refused r => exact runToCompletion_refused n h

/-- Fewer than `n` steps lead from `s` to `u`, and the step there has the outcome `o`. -/
def StopsWithin (n : Nat) (s u : State) (o : StepResult) : Prop := ∃ k, k < n ∧ stepN k s = .next u ∧ step u = o

theorem not_stopsWithin_zero {s u : State} {o : StepResult} : ¬ StopsWithin 0 s u o :=
  fun ⟨k, hk, _⟩ => Nat.not_lt_zero k hk

theorem not_stopsWithin_of_halted {n : Nat} {s u : State} {o : StepResult} (ho : IsStop o) (h : s.status = .halted) :
    ¬ StopsWithin n s u o := by
  rintro ⟨k, -, hrun, hstep⟩
  cases (stepN_halted h k).symm.trans hrun
  exact ho s (hstep.symm.trans (step_halted h))

/-- A stop is met at once or after the first step. -/
theorem stopsWithin_succ_iff {n : Nat} {s u : State} {o : StepResult} :
    StopsWithin (n + 1) s u o ↔ (s = u ∧ step s = o) ∨ ∃ v, step s = .next v ∧ StopsWithin n v u o := by
  constructor
  · rintro ⟨k, hk, hrun, hstep⟩
    cases k with
    | zero => cases hrun; exact .inl ⟨rfl, hstep⟩
    | succ k =>
      obtain ⟨v, hv, hrest⟩ := stepN_succ_next hrun
      exact .inr ⟨v, hv, k, Nat.lt_of_succ_lt_succ hk, hrest, hstep⟩
  · rintro (⟨rfl, hstep⟩ | ⟨v, hv, k, hk, hrest, hstep⟩)
    · exact ⟨0, Nat.succ_pos n, rfl, hstep⟩
    · exact ⟨k + 1, Nat.succ_lt_succ hk, (stepN_succ hv).trans hrest, hstep⟩

/-- Faults and refusals alike end a run where they are met, and at no other state. -/
theorem runToCompletion_eq_endAt_iff {o : StepResult} (ho : IsStop o) (n : Nat) (s u : State) :
    runToCompletion n s = endAt u o ↔ StopsWithin n s u o := by
  induction n generalizing s with
  | zero =>
    cases hs : s.status with
    | halted => simp [runToCompletion_halted 0 hs, halted_ne_endAt, not_stopsWithin_zero]
    | running => simp [runToCompletion_zero hs, running_ne_endAt ho, not_stopsWithin_zero]
  | succ n ih =>
    cases hs : s.status with
    | halted => simp [runToCompletion_halted (n + 1) hs, halted_ne_endAt, not_stopsWithin_of_halted ho hs]
    | running =>
      rw [stopsWithin_succ_iff]
      cases hstep : step s with
      | next v => simp [runToCompletion_next n hs hstep, ih, (ho v).symm]
      | fault f => simp [runToCompletion_of_stop n (isStop_fault f) hstep, endAt_inj (isStop_fault f) ho]
      | refused r => simp [runToCompletion_of_stop n (isStop_refused r) hstep, endAt_inj (isStop_refused r) ho]

theorem not_running_of_halted {n : Nat} {s u : State} (h : s.status = .halted) :
    ¬ (stepN n s = .next u ∧ u.status = .running) := by
  rintro ⟨hrun, hrunning⟩
  cases (stepN_halted h n).symm.trans hrun
  cases h.symm.trans hrunning

/-- A run that has used up its budget stands where as many steps lead. -/
theorem runToCompletion_eq_running_iff (n : Nat) (s u : State) :
    runToCompletion n s = .running u ↔ stepN n s = .next u ∧ u.pc ≠ u.prog.length := by
  rw [← status_running_iff]
  induction n generalizing s with
  | zero =>
    cases hs : s.status with
    | halted => exact iff_of_false (by simp [runToCompletion_halted 0 hs]) (not_running_of_halted hs)
    | running =>
      rw [runToCompletion_zero hs]
      constructor
      · intro h; cases h; exact ⟨rfl, hs⟩
      · rintro ⟨h, -⟩; cases h; rfl
  | succ n ih =>
    cases hs : s.status with
    | halted => exact iff_of_false (by simp [runToCompletion_halted (n + 1) hs]) (not_running_of_halted hs)
    | running =>
      rw [stepN_succ_iff]
      cases hstep : step s with
      | next v => simp [runToCompletion_next n hs hstep, ih]
      | fault f => simp [runToCompletion_fault n hstep]
      | refused r => simp [runToCompletion_refused n hstep]

/-- Settles O56: stops by `runToCompletion_eq_endAt_iff`, a run still going by `runToCompletion_eq_running_iff`; SNAPSHOT
shows the state that the result names. -/
theorem faultEndsTheRunAtTheStateBeforeIt : Obligations.FaultEndsTheRunAtTheStateBeforeIt := by
  intro n s u
  have shows {result : RunResult} (h : runToCompletion n s = result) :
      (runToCompletion n s).snapshot = snapshot result.state := by rw [h, RunResult.snapshot]
  exact ⟨fun f => runToCompletion_eq_endAt_iff (isStop_fault f) n s u,
    fun r => runToCompletion_eq_endAt_iff (isStop_refused r) n s u, runToCompletion_eq_running_iff n s u,
    fun _ => shows, fun _ => shows, shows, shows⟩

end Sys2Proof.Proofs.Run
end
